-- ==== Sys2Proof/Word.lean ====
section
/-! DEFINITION. The word types of the hardware (00_scope.md R4, R7). -/

namespace Sys2Proof

/-- One memory byte (20_memory.md R22). -/
abbrev Byte := BitVec 8

/-- A general register, EIP, FLAGS or an address: XLEN = 32 bits (00_scope.md R4, R7). -/
abbrev Word := BitVec 32

/-- A raw 3-bit field of an encoding: a register index or a group extension (30_encoding.md R39, R40, R46). -/
abbrev Field3 := BitVec 3

end Sys2Proof
end

