-- ==== Sys2Proof/Syntax.lean ====
section
/-! DEFINITION. The instructions of spec/opcode_table.json as data: the addressing descriptor
(10_state.md R20), the instruction type, and the handlers the dispatch table maps to (45_execution_loop.md R83). -/

namespace Sys2Proof

/-- The displacement of an addressing descriptor: "absent, signed 8-bit, or unsigned/raw 32-bit" (R20, R42). -/
inductive Disp where
  | absent
  | disp8 (b : Byte)
  | disp32 (w : Word)
deriving DecidableEq, Repr

/-- The addressing descriptor `d` of 10_state.md R20, as `DecodeModRM` leaves it: raw fields, uninterpreted. -/
structure Descriptor where
  mode        : BitVec 2
  regOrOpcode : Field3
  rm          : Field3
  sib         : Option Byte
  disp        : Disp
deriving DecidableEq, Repr

/-- One constructor per row of spec/opcode_table.json, in the table's order. -/
inductive Instr where
  | addRm32R32 (d : Descriptor)                  -- 01 /r
  | pushR32 (r : Field3)                         -- 50+r
  | popR32 (r : Field3)                          -- 58+r
  | pushImm32 (imm : Word)                       -- 68 imm32
  | pushImm8 (imm : Byte)                        -- 6A imm8
  | addRm32Imm8 (d : Descriptor) (imm : Byte)    -- 83 /0 imm8
  | subRm32Imm8 (d : Descriptor) (imm : Byte)    -- 83 /5 imm8
  | group83Ext1 (d : Descriptor)                 -- 83 /1
  | group83Ext2 (d : Descriptor)                 -- 83 /2
  | group83Ext3 (d : Descriptor)                 -- 83 /3
  | group83Ext4 (d : Descriptor)                 -- 83 /4
  | group83Ext6 (d : Descriptor)                 -- 83 /6
  | group83Ext7 (d : Descriptor)                 -- 83 /7
  | movRm32R32 (d : Descriptor)                  -- 89 /r
  | movR32Rm32 (d : Descriptor)                  -- 8B /r
  | movR32Imm32 (r : Field3) (imm : Word)        -- B8+r imm32
  | ret                                          -- C3
  | movRm32Imm32 (d : Descriptor) (imm : Word)   -- C7 /any imm32
  | leave                                        -- C9
  | callRel32 (rel : Word)                       -- E8 rel32
  | jmpRel32 (rel : Word)                        -- E9 rel32
  | jmpRel8 (rel : Byte)                         -- EB rel8
  | incRm32 (d : Descriptor)                     -- FF /0
  | groupFFExt1 (d : Descriptor)                 -- FF /1
  | groupFFExt2 (d : Descriptor)                 -- FF /2
  | groupFFExt3 (d : Descriptor)                 -- FF /3
  | groupFFExt4 (d : Descriptor)                 -- FF /4
  | groupFFExt5 (d : Descriptor)                 -- FF /5
  | groupFFExt6 (d : Descriptor)                 -- FF /6
  | groupFFExt7 (d : Descriptor)                 -- FF /7
  | noHandler (op : Byte)                        -- any of the 219 bytes without a handler
deriving DecidableEq, Repr

/-- The handlers of the dispatch table, one per row of 30_encoding.md R47; a row that names a register in the
opcode carries it (R39). -/
inductive Handler where
  | add01
  | push50 (r : Field3)
  | pop58 (r : Field3)
  | push68
  | push6A
  | group83
  | mov89
  | mov8B
  | movB8 (r : Field3)
  | retC3
  | movC7
  | leaveC9
  | callE8
  | jmpE9
  | jmpEB
  | groupFF
deriving DecidableEq, Repr

end Sys2Proof
end

