-- ==== Sys2Proof/WellFormed.lean ====
section
/-! DEFINITION. Which terms of the syntax stand for bytes of the hardware: the descriptor's optional parts fit its
mode and rm (30_encoding.md R41, R42), a group row carries its own extension (R48, R49), and an unhandled byte is
one of the 219 (R47, R51). -/

namespace Sys2Proof

/-- A SIB byte is present exactly when `mode != 3 && rm == 4` (R41). -/
def needsSib (mode : BitVec 2) (rm : Field3) : Bool := mode != 3#2 && rm == 4#3

/-- `mode == 2 || (mode == 0 && rm == 5)`: four displacement bytes (R42). -/
def needsDisp32 (mode : BitVec 2) (rm : Field3) : Bool := mode == 2#2 || (mode == 0#2 && rm == 5#3)

/-- `mode == 1`: one displacement byte (R42). -/
def needsDisp8 (mode : BitVec 2) : Bool := mode == 1#2

/-- The displacement has the form that R42 chooses for the mode and rm. -/
def dispFits (mode : BitVec 2) (rm : Field3) : Disp → Bool
  | .absent   => !needsDisp32 mode rm && !needsDisp8 mode
  | .disp8 _  => needsDisp8 mode
  | .disp32 _ => needsDisp32 mode rm

/-- A descriptor that `DecodeModRM` can produce (R20, R41, R42). -/
def Descriptor.wf (d : Descriptor) : Bool :=
  d.sib.isSome == needsSib d.mode d.rm && dispFits d.mode d.rm d.disp

/-- A descriptor of a group row: its reg field is the row's extension (R48, R49). -/
def Descriptor.wfExt (d : Descriptor) (ext : Field3) : Bool := d.wf && d.regOrOpcode == ext

/-- The 37 opcode bytes that have a handler, as 30_encoding.md R47 lists them. -/
def handledOpcodes : List Byte :=
  [0x01#8,
   0x50#8, 0x51#8, 0x52#8, 0x53#8, 0x54#8, 0x55#8, 0x56#8, 0x57#8,
   0x58#8, 0x59#8, 0x5A#8, 0x5B#8, 0x5C#8, 0x5D#8, 0x5E#8, 0x5F#8,
   0x68#8, 0x6A#8, 0x83#8, 0x89#8, 0x8B#8,
   0xB8#8, 0xB9#8, 0xBA#8, 0xBB#8, 0xBC#8, 0xBD#8, 0xBE#8, 0xBF#8,
   0xC3#8, 0xC7#8, 0xC9#8, 0xE8#8, 0xE9#8, 0xEB#8, 0xFF#8]

/-- A term that stands for bytes of the hardware. -/
def Instr.wf : Instr → Bool
  | .addRm32R32 d => d.wf
  | .pushR32 _ => true
  | .popR32 _ => true
  | .pushImm32 _ => true
  | .pushImm8 _ => true
  | .addRm32Imm8 d _ => d.wfExt 0#3
  | .subRm32Imm8 d _ => d.wfExt 5#3
  | .group83Ext1 d => d.wfExt 1#3
  | .group83Ext2 d => d.wfExt 2#3
  | .group83Ext3 d => d.wfExt 3#3
  | .group83Ext4 d => d.wfExt 4#3
  | .group83Ext6 d => d.wfExt 6#3
  | .group83Ext7 d => d.wfExt 7#3
  | .movRm32R32 d => d.wf
  | .movR32Rm32 d => d.wf
  | .movR32Imm32 _ _ => true
  | .ret => true
  | .movRm32Imm32 d _ => d.wf
  | .leave => true
  | .callRel32 _ => true
  | .jmpRel32 _ => true
  | .jmpRel8 _ => true
  | .incRm32 d => d.wfExt 0#3
  | .groupFFExt1 d => d.wfExt 1#3
  | .groupFFExt2 d => d.wfExt 2#3
  | .groupFFExt3 d => d.wfExt 3#3
  | .groupFFExt4 d => d.wfExt 4#3
  | .groupFFExt5 d => d.wfExt 5#3
  | .groupFFExt6 d => d.wfExt 6#3
  | .groupFFExt7 d => d.wfExt 7#3
  | .noHandler op => !handledOpcodes.contains op

end Sys2Proof
end

