-- ==== Sys2Proof/Decode.lean ====
section
/-! DEFINITION. Bytes to instructions and back (30_encoding.md): the promotions and byte-order helpers, the dispatch
table, `DecodeModRM`, the decoder over any source of instruction bytes, the encoder, and the host's numbering. -/

namespace Sys2Proof

/-! ## Promotions and byte order -/

/-- `s8`: "`x` if `x < 128`, else `x - 256`" (00_scope.md R8). -/
def s8 (x : Byte) : Int := if x.toNat < 128 then (x.toNat : Int) else (x.toNat : Int) - 256

/-- `s32`: the signed reading of a 32-bit value (R8). -/
def s32 (v : Word) : Int := if v.toNat < 0x80000000 then (v.toNat : Int) else (v.toNat : Int) - 0x100000000

/-- `sext_32`: the 32-bit value congruent to `s8` modulo 2^32 (R8). -/
def sext32 (x : Byte) : Word := BitVec.ofInt 32 (s8 x)

/-- `zext_32`: bits 31 to 8 cleared (R8). -/
def zext32 (x : Byte) : Word := BitVec.ofNat 32 x.toNat

/-- Four bytes in address order as a little-endian dword: byte `i` to bits `8i+7:8i` (20_memory.md R25). -/
def le32 (b0 b1 b2 b3 : Byte) : Word := b3 ++ b2 ++ b1 ++ b0

/-- Byte `i` of a dword, `v[8i+7:8i]` (00_scope.md R6). -/
def byteOf (v : Word) (i : Nat) : Byte := v.extractLsb' (8 * i) 8

/-! ## Fields of the ModRM byte (30_encoding.md R40; the bit positions are PRESUMED by the spec: log entry 7) -/

def modeField (m : Byte) : BitVec 2 := m.extractLsb' 6 2
def regField (m : Byte) : Field3 := m.extractLsb' 3 3
def rmField (m : Byte) : Field3 := m.extractLsb' 0 3

/-- The ModRM byte of three fields. -/
def modrmByte (mode : BitVec 2) (reg rm : Field3) : Byte := mode ++ reg ++ rm

/-! ## Lengths (R38, R44) -/

def dispLength : Disp → Nat
  | .absent   => 0
  | .disp8 _  => 1
  | .disp32 _ => 4

def sibLength (sib : Option Byte) : Nat := if sib.isSome then 1 else 0

/-- `L`, the bytes `DecodeModRM` consumes, the ModRM byte among them (R44). -/
def Descriptor.length (d : Descriptor) : Nat := 1 + sibLength d.sib + dispLength d.disp

/-- The bytes an instruction takes up in the instruction stream (R38). For a group row without a meaning these are
the `1 + L` bytes fetched before the fault; for a byte without a handler the one byte fetched. -/
def Instr.length : Instr → Nat
  | .addRm32R32 d => 1 + d.length
  | .pushR32 _ => 1
  | .popR32 _ => 1
  | .pushImm32 _ => 5
  | .pushImm8 _ => 2
  | .addRm32Imm8 d _ => 1 + d.length + 1
  | .subRm32Imm8 d _ => 1 + d.length + 1
  | .group83Ext1 d => 1 + d.length
  | .group83Ext2 d => 1 + d.length
  | .group83Ext3 d => 1 + d.length
  | .group83Ext4 d => 1 + d.length
  | .group83Ext6 d => 1 + d.length
  | .group83Ext7 d => 1 + d.length
  | .movRm32R32 d => 1 + d.length
  | .movR32Rm32 d => 1 + d.length
  | .movR32Imm32 _ _ => 5
  | .ret => 1
  | .movRm32Imm32 d _ => 1 + d.length + 4
  | .leave => 1
  | .callRel32 _ => 5
  | .jmpRel32 _ => 5
  | .jmpRel8 _ => 2
  | .incRm32 d => 1 + d.length
  | .groupFFExt1 d => 1 + d.length
  | .groupFFExt2 d => 1 + d.length
  | .groupFFExt3 d => 1 + d.length
  | .groupFFExt4 d => 1 + d.length
  | .groupFFExt5 d => 1 + d.length
  | .groupFFExt6 d => 1 + d.length
  | .groupFFExt7 d => 1 + d.length
  | .noHandler _ => 1

/-- The instructions whose operand is read before their last byte is fetched: 83 /0 and 83 /5 (R74, R75). -/
def operandBeforeImm : Instr → Option Descriptor
  | .addRm32Imm8 d _ => some d
  | .subRm32Imm8 d _ => some d
  | _ => none

/-! ## The dispatch table (R47, R83) -/

/-- "A single table maps an opcode byte (0x00–0xFF) to a handler" (R47); exactly 37 bytes have one (decision D7, log
entry 12). The register of 50+r, 58+r and B8+r is the opcode's low three bits (R39). -/
def handlerOf (op : Byte) : Option Handler :=
  if op = 0x01#8 then some .add01
  else if op.extractLsb' 3 5 = 0x0A#5 then some (.push50 (op.extractLsb' 0 3))
  else if op.extractLsb' 3 5 = 0x0B#5 then some (.pop58 (op.extractLsb' 0 3))
  else if op = 0x68#8 then some .push68
  else if op = 0x6A#8 then some .push6A
  else if op = 0x83#8 then some .group83
  else if op = 0x89#8 then some .mov89
  else if op = 0x8B#8 then some .mov8B
  else if op.extractLsb' 3 5 = 0x17#5 then some (.movB8 (op.extractLsb' 0 3))
  else if op = 0xC3#8 then some .retC3
  else if op = 0xC7#8 then some .movC7
  else if op = 0xC9#8 then some .leaveC9
  else if op = 0xE8#8 then some .callE8
  else if op = 0xE9#8 then some .jmpE9
  else if op = 0xEB#8 then some .jmpEB
  else if op = 0xFF#8 then some .groupFF
  else none

/-! ## The decoder -/

/-- Where an instruction's bytes come from. `u8 k` and `u32 k` read the byte and the little-endian dword at offset
`k` from the opcode; `operandRead d` is the operand read that the 83 handlers do BEFORE they fetch their immediate
(43_arithmetic.md R74, R75): the decoder takes only its fault, so that the faults come in the spec's order (log
entry 11). -/
structure Source (ε : Type) where
  u8          : Nat → Except ε Byte
  u32         : Nat → Except ε Word
  operandRead : Descriptor → Except ε Unit

/-- The SIB byte at offset `k`, where R41 has one. -/
def decodeSib {ε : Type} (src : Source ε) (mode : BitVec 2) (rm : Field3) (k : Nat) : Except ε (Option Byte) :=
  if needsSib mode rm then do
    let b ← src.u8 k
    return some b
  else return none

/-- The displacement at offset `k`, of the form R42 chooses. -/
def decodeDisp {ε : Type} (src : Source ε) (mode : BitVec 2) (rm : Field3) (k : Nat) : Except ε Disp :=
  if needsDisp32 mode rm then do
    let w ← src.u32 k
    return .disp32 w
  else if needsDisp8 mode then do
    let b ← src.u8 k
    return .disp8 b
  else return .absent

/-- `DecodeModRM` (R43), the ModRM byte being at offset `k`: ModRM, SIB, displacement, in that order (log entry 21). -/
def decodeModRM {ε : Type} (src : Source ε) (k : Nat) : Except ε Descriptor := do
  let m ← src.u8 k
  let sib ← decodeSib src (modeField m) (rmField m) (k + 1)
  let disp ← decodeDisp src (modeField m) (rmField m) (k + 1 + sibLength sib)
  return { mode := modeField m, regOrOpcode := regField m, rm := rmField m, sib := sib, disp := disp }

/-- `OpcodeExtension(d)`: the reg field as a group selector (40_addressing_operands.md R58). -/
def opcodeExtension (d : Descriptor) : Field3 := d.regOrOpcode

/-- The immediate byte of 83 /0 and 83 /5, after the ModRM bytes and after the operand read (R74, R75). -/
def decodeGroup83Imm {ε : Type} (src : Source ε) (d : Descriptor) : Except ε Byte := do
  src.operandRead d
  src.u8 (1 + d.length)

/-- The rows of 0x83 without a meaning: extensions 1, 2, 3, 4, 6 and 7 (R48). -/
def group83Fault (d : Descriptor) : Instr :=
  if opcodeExtension d = 1#3 then .group83Ext1 d
  else if opcodeExtension d = 2#3 then .group83Ext2 d
  else if opcodeExtension d = 3#3 then .group83Ext3 d
  else if opcodeExtension d = 4#3 then .group83Ext4 d
  else if opcodeExtension d = 6#3 then .group83Ext6 d
  else .group83Ext7 d

/-- The second dispatch of 0x83 on the extension field (30_encoding.md R48, 43_arithmetic.md R73): checked after the
ModRM bytes, before the immediate and before any operand. -/
def decodeGroup83 {ε : Type} (src : Source ε) (d : Descriptor) : Except ε Instr :=
  if opcodeExtension d = 0#3 then do
    let imm ← decodeGroup83Imm src d
    return .addRm32Imm8 d imm
  else if opcodeExtension d = 5#3 then do
    let imm ← decodeGroup83Imm src d
    return .subRm32Imm8 d imm
  else return group83Fault d

/-- The second dispatch of 0xFF on the extension field (R49, R76). -/
def decodeGroupFF (d : Descriptor) : Instr :=
  if opcodeExtension d = 0#3 then .incRm32 d
  else if opcodeExtension d = 1#3 then .groupFFExt1 d
  else if opcodeExtension d = 2#3 then .groupFFExt2 d
  else if opcodeExtension d = 3#3 then .groupFFExt3 d
  else if opcodeExtension d = 4#3 then .groupFFExt4 d
  else if opcodeExtension d = 5#3 then .groupFFExt5 d
  else if opcodeExtension d = 6#3 then .groupFFExt6 d
  else .groupFFExt7 d

/-- The bytes after the opcode, as each handler fetches them (R38, R45, R60 to R82). -/
def decodeHandler {ε : Type} (src : Source ε) : Handler → Except ε Instr
  | .add01 => do
    let d ← decodeModRM src 1
    return .addRm32R32 d
  | .push50 r => return .pushR32 r
  | .pop58 r => return .popR32 r
  | .push68 => do
    let imm ← src.u32 1
    return .pushImm32 imm
  | .push6A => do
    let imm ← src.u8 1
    return .pushImm8 imm
  | .group83 => do
    let d ← decodeModRM src 1
    decodeGroup83 src d
  | .mov89 => do
    let d ← decodeModRM src 1
    return .movRm32R32 d
  | .mov8B => do
    let d ← decodeModRM src 1
    return .movR32Rm32 d
  | .movB8 r => do
    let imm ← src.u32 1
    return .movR32Imm32 r imm
  | .retC3 => return .ret
  | .movC7 => do
    let d ← decodeModRM src 1
    let imm ← src.u32 (1 + d.length)
    return .movRm32Imm32 d imm
  | .leaveC9 => return .leave
  | .callE8 => do
    let rel ← src.u32 1
    return .callRel32 rel
  | .jmpE9 => do
    let rel ← src.u32 1
    return .jmpRel32 rel
  | .jmpEB => do
    let rel ← src.u8 1
    return .jmpRel8 rel
  | .groupFF => do
    let d ← decodeModRM src 1
    return decodeGroupFF d

/-- The decoder: the opcode byte selects the handler; a byte without one is the instruction `noHandler` (R47, R51). -/
def decodeFrom {ε : Type} (src : Source ε) : Except ε Instr := do
  let op ← src.u8 0
  match handlerOf op with
  | none => return .noHandler op
  | some h => decodeHandler src h

/-- Why a list of bytes is no instruction: the byte at offset `k` is missing. Nothing else is rejected, since every
opcode byte and every extension is a row of the table. -/
inductive DecodeError where
  | truncated (k : Nat)
deriving DecidableEq, Repr

def listU8 (bs : List Byte) (k : Nat) : Except DecodeError Byte :=
  match bs[k]? with
  | some b => .ok b
  | none => .error (.truncated k)

def listU32 (bs : List Byte) (k : Nat) : Except DecodeError Word := do
  let b0 ← listU8 bs k
  let b1 ← listU8 bs (k + 1)
  let b2 ← listU8 bs (k + 2)
  let b3 ← listU8 bs (k + 3)
  return le32 b0 b1 b2 b3

/-- A plain list of bytes as a source; there is no machine, so no operand to read. -/
def listSource (bs : List Byte) : Source DecodeError where
  u8 := listU8 bs
  u32 := listU32 bs
  operandRead _ := .ok ()

/-- The decoder on a list of bytes; bytes after the instruction are not looked at. -/
def decode (bs : List Byte) : Except DecodeError Instr := decodeFrom (listSource bs)

/-! ## The encoder -/

/-- A dword's four bytes in fetch order (20_memory.md R27). -/
def bytes32 (v : Word) : List Byte := [byteOf v 0, byteOf v 1, byteOf v 2, byteOf v 3]

def dispBytes : Disp → List Byte
  | .absent   => []
  | .disp8 b  => [b]
  | .disp32 w => bytes32 w

/-- The ModRM byte, the SIB byte if any, the displacement bytes if any (30_encoding.md R37). -/
def modrmBytes (d : Descriptor) : List Byte :=
  modrmByte d.mode d.regOrOpcode d.rm :: (d.sib.toList ++ dispBytes d.disp)

/-- The bytes of an instruction in fetch order (R38, R47). -/
def encode : Instr → List Byte
  | .addRm32R32 d => 0x01#8 :: modrmBytes d
  | .pushR32 r => [0x0A#5 ++ r]
  | .popR32 r => [0x0B#5 ++ r]
  | .pushImm32 imm => 0x68#8 :: bytes32 imm
  | .pushImm8 imm => [0x6A#8, imm]
  | .addRm32Imm8 d imm => 0x83#8 :: (modrmBytes d ++ [imm])
  | .subRm32Imm8 d imm => 0x83#8 :: (modrmBytes d ++ [imm])
  | .group83Ext1 d => 0x83#8 :: modrmBytes d
  | .group83Ext2 d => 0x83#8 :: modrmBytes d
  | .group83Ext3 d => 0x83#8 :: modrmBytes d
  | .group83Ext4 d => 0x83#8 :: modrmBytes d
  | .group83Ext6 d => 0x83#8 :: modrmBytes d
  | .group83Ext7 d => 0x83#8 :: modrmBytes d
  | .movRm32R32 d => 0x89#8 :: modrmBytes d
  | .movR32Rm32 d => 0x8B#8 :: modrmBytes d
  | .movR32Imm32 r imm => (0x17#5 ++ r) :: bytes32 imm
  | .ret => [0xC3#8]
  | .movRm32Imm32 d imm => 0xC7#8 :: (modrmBytes d ++ bytes32 imm)
  | .leave => [0xC9#8]
  | .callRel32 rel => 0xE8#8 :: bytes32 rel
  | .jmpRel32 rel => 0xE9#8 :: bytes32 rel
  | .jmpRel8 rel => [0xEB#8, rel]
  | .incRm32 d => 0xFF#8 :: modrmBytes d
  | .groupFFExt1 d => 0xFF#8 :: modrmBytes d
  | .groupFFExt2 d => 0xFF#8 :: modrmBytes d
  | .groupFFExt3 d => 0xFF#8 :: modrmBytes d
  | .groupFFExt4 d => 0xFF#8 :: modrmBytes d
  | .groupFFExt5 d => 0xFF#8 :: modrmBytes d
  | .groupFFExt6 d => 0xFF#8 :: modrmBytes d
  | .groupFFExt7 d => 0xFF#8 :: modrmBytes d
  | .noHandler op => [op]

/-! ## The numbering of spec/opcode_table.json -/

/-- The longest instruction: `C7` with mode 2 and a SIB byte, 11 bytes (R37). -/
def maxLength : Nat := 11

/-- The `n` bytes of a table word in fetch order. spec/opcode_table.json numbers a two-byte row with "the first byte
most significant" (30_encoding.md, its opening; the row of 83 /0 has 131 in bits 15 to 8), so the first byte is the
most significant of the `n` (log entry 18). -/
def wordBytes : Nat → Nat → List Byte
  | 0, _ => []
  | n + 1, w => BitVec.ofNat 8 (w >>> (8 * n)) :: wordBytes n w

/-- The bytes of a table word as the hardware stores them, with zeros up to the longest instruction. -/
def tableBytes (nbits w : Nat) : List Byte :=
  (wordBytes ((nbits + 7) / 8) w ++ List.replicate maxLength 0#8).take maxLength

/-- The instruction the decoder reads from a word of spec/opcode_table.json. -/
def decodeTableWord (nbits w : Nat) : Option Instr :=
  match decode (tableBytes nbits w) with
  | .ok i => some i
  | .error _ => none

end Sys2Proof
end

