-- ==== Sys2Proof/Config.lean ====
section
/-! DEFINITION. The implementation parameters of 00_scope.md R4. -/

namespace Sys2Proof.Config

/-- `LOAD_BASE`: address of the first image byte and the initial EIP (R4, R16). Log entry 22. -/
def loadBase : Word := 0x00007C00#32

/-- `INIT_SP`: the initial ESP (R4, R15). Log entry 22. -/
def initSp : Word := 0x00007C00#32

/-- `SAFETY_BOUND`: the EIP value above which the loop stops (R4, R87). -/
def safetyBound : Word := 0x00100000#32

/-- The number of 32-bit addresses: the largest `MEM_SIZE` (R4, decision D17). -/
def addressSpace : Nat := 0x100000000

/-- `PUSH_IMM8_SIGN_EXTEND`: `false` on this hardware (R4, R69, decision D6). Log entry 8. -/
def pushImm8SignExtend : Bool := false

end Sys2Proof.Config
end

