-- ==== Sys2Proof/Machine/State.lean ====
section
/-! DEFINITION. Everything the spec gives the machine, as plain data (10_state.md R11 to R21, 70_reset_and_hazards.md
R102), the reasons a run ends (60_exceptions.md R90, R91), and the state after reset. -/

namespace Sys2Proof.Machine

/-- "A closed enumeration of 8 general-purpose 32-bit registers", in index order (R12). -/
inductive Reg where
  | EAX | ECX | EDX | EBX | ESP | EBP | ESI | EDI
deriving DecidableEq, Repr

/-- The register file (R12, R14): eight independent registers, none hard-wired. -/
structure Regs where
  eax : Word
  ecx : Word
  edx : Word
  ebx : Word
  esp : Word
  ebp : Word
  esi : Word
  edi : Word
deriving DecidableEq, Repr

/-- Why a run ends gracefully (R90). -/
inductive HaltReason where
  /-- The byte fetched as an opcode has no handler (R85). Raised by the meaning of `noHandler`. -/
  | unknownOpcode (op : Byte)
  /-- EIP = 0 after an instruction (R87). Raised by the post-instruction checks. -/
  | sentinelEIP
  /-- EIP above `SAFETY_BOUND` after an instruction (R87). Raised by the post-instruction checks. -/
  | safetyBound
deriving DecidableEq, Repr

/-- Why a run ends in a hard fault, with the value recorded (R91). -/
inductive FaultReason where
  /-- 0x83 with an extension outside 0 and 5, or 0xFF with an extension other than 0 (R73, R76). -/
  | unimplementedGroupExtension (opcode : Byte) (ext : Field3)
  /-- A memory operand with a SIB byte reaches `EffectiveAddress` (R54). -/
  | unsupportedSIB (sib : Byte)
  /-- A fetch, load, store, push or pop touches a byte at or above `MEM_SIZE`: the first failing byte address,
  computed without wrap-around (R24). -/
  | outOfBounds (addr : Nat)
  /-- A register index outside 0 to 7 (R13); no instruction reaches it (log entry 23). -/
  | invalidRegisterIndex (i : Nat)
  /-- `EffectiveAddress` of a register-direct descriptor (R54, decision D18); no instruction reaches it (log entry 23). -/
  | invalidAddressingMode
deriving DecidableEq, Repr

/-- The run status (R19). A block that is FAULTED shows no state (R95, decision D11), so a step that faults answers
`Host.Outcome.fault` and not a state with this status (log entry 1). -/
inductive RunStatus where
  | running
  | halted (reason : HaltReason)
  | faulted (reason : FaultReason)
deriving DecidableEq, Repr

/-- One trace event `(eip, opcode)` (R99). -/
structure TraceEvent where
  eip    : Word
  opcode : Byte
deriving DecidableEq, Repr

/-- The byte buffer (R18, R22): `size` is `MEM_SIZE`, `cells` the bytes in canonical form. An address below `size`
that `cells` does not list reads 0x00 (R23, R102; log entry 16). -/
structure Memory where
  size  : Nat
  cells : List Host.Cell
deriving DecidableEq, Repr

/-- The state of the block (R11, R102). -/
structure State where
  /-- The eight general registers (R12). -/
  regs   : Regs
  /-- The instruction pointer (R16). -/
  eip    : Word
  /-- FLAGS: storage that no instruction reads or writes (R17). -/
  flags  : Word
  /-- The one address space: code, data and stack (R18, R22). -/
  mem    : Memory
  /-- The run status (R19). -/
  status : RunStatus
  /-- The trace events emitted so far, oldest first (R99, R102; log entry 4). -/
  trace  : List TraceEvent
deriving DecidableEq, Repr

/-- How the machine stops with a hard fault. -/
inductive Fault where
  /-- `FAULTED(reason)` with the trace already emitted and no state (R86, R91, R95, decision D11; log entry 1). Raised
  by every meaning whose operand, stack access or group extension is bad, and by the step's own fetch. Safe: the run
  ends on the hardware too, and nothing of its state can be claimed. -/
  | faulted (reason : FaultReason) (trace : List TraceEvent)
deriving DecidableEq, Repr

/-- Why the model gives no step. -/
inductive Refusal where
  /-- An instruction without a meaning yet; raised by the dispatch alone. Safe. No arm does so. -/
  | notModelled (mnemonic : String)
  /-- "No step is defined" from a terminal status (R88; log entry 2). Raised by `step` alone. Safe. -/
  | terminal (status : RunStatus)
deriving DecidableEq, Repr

/-- The registers after reset: "all 8 registers are initialized to 0 ... except ESP" (R15). -/
def Regs.reset : Regs :=
  { eax := 0#32, ecx := 0#32, edx := 0#32, ebx := 0#32, esp := Config.initSp, ebp := 0#32, esi := 0#32, edi := 0#32 }

/-- The machine right after reset (R102), with the empty image: nothing is loaded (log entry 5). FLAGS is zero by the
spec's decision D3 (log entry 6). -/
def State.reset : State :=
  { regs := Regs.reset
    eip := Config.loadBase
    flags := 0#32
    mem := { size := Config.loadBase.toNat, cells := [] }
    status := .running
    trace := [] }

end Sys2Proof.Machine
end

