-- ==== Sys2Proof/Machine/Ops.lean ====
section
/-! DEFINITION. The shared operations over memory, registers and the stack (10_state.md R13, 20_memory.md R24 to R26,
42_stack.md R64, R65) and the ends of an instruction: completing, faulting, halting (60_exceptions.md R90, R91). -/

namespace Sys2Proof.Machine

/-! ## The register file -/

/-- The canonical mapping from an index to a register; no index outside 0 to 7 is valid (R12). -/
def Reg.ofIndex : Nat → Option Reg
  | 0 => some .EAX
  | 1 => some .ECX
  | 2 => some .EDX
  | 3 => some .EBX
  | 4 => some .ESP
  | 5 => some .EBP
  | 6 => some .ESI
  | 7 => some .EDI
  | _ => none

/-- The register that a 3-bit field names (R12, R39). -/
def Reg.ofField (r : Field3) : Reg := (Reg.ofIndex r.toNat).getD .EAX

/-- A register's index in the encoding (R12). -/
def Reg.index : Reg → Field3
  | .EAX => 0#3
  | .ECX => 1#3
  | .EDX => 2#3
  | .EBX => 3#3
  | .ESP => 4#3
  | .EBP => 5#3
  | .ESI => 6#3
  | .EDI => 7#3

def Regs.get (x : Regs) : Reg → Word
  | .EAX => x.eax
  | .ECX => x.ecx
  | .EDX => x.edx
  | .EBX => x.ebx
  | .ESP => x.esp
  | .EBP => x.ebp
  | .ESI => x.esi
  | .EDI => x.edi

def Regs.set (x : Regs) (r : Reg) (v : Word) : Regs :=
  match r with
  | .EAX => { x with eax := v }
  | .ECX => { x with ecx := v }
  | .EDX => { x with edx := v }
  | .EBX => { x with ebx := v }
  | .ESP => { x with esp := v }
  | .EBP => { x with ebp := v }
  | .ESI => { x with esi := v }
  | .EDI => { x with edi := v }

/-- `ReadReg(i)` (R13): an index outside 0 to 7 is a hard fault. -/
def readReg (x : Regs) (i : Nat) : Except FaultReason Word :=
  match Reg.ofIndex i with
  | some r => .ok (x.get r)
  | none => .error (.invalidRegisterIndex i)

/-- `WriteReg(i, v)` (R13). -/
def writeReg (x : Regs) (i : Nat) (v : Word) : Except FaultReason Regs :=
  match Reg.ofIndex i with
  | some r => .ok (x.set r v)
  | none => .error (.invalidRegisterIndex i)

/-! ## Updates of State -/

/-- `x[R]`, a register by name (00_scope.md R9). -/
def State.getReg (s : State) (r : Reg) : Word := s.regs.get r

/-- `x[R] <- v`, a register by name (R9). -/
def State.setReg (s : State) (r : Reg) (v : Word) : State := { s with regs := s.regs.set r v }

def State.setRegs (s : State) (x : Regs) : State := { s with regs := x }

def State.setMem (s : State) (m : Memory) : State := { s with mem := m }

/-- `eip <- target` (R9). -/
def State.setEip (s : State) (target : Word) : State := { s with eip := target }

/-- `eip <- eip + n`, modulo 2^32 (R7, R16; log entry 9). -/
def State.advance (s : State) (n : Nat) : State := s.setEip (s.eip + BitVec.ofNat 32 n)

/-! ## Memory as a list in canonical form -/

/-- The byte a list of cells holds for an address; 0x00 where it lists none. -/
def cellsGet : List Host.Cell → Nat → Byte
  | [], _ => 0#8
  | c :: cs, a => if c.1 = a then c.2 else cellsGet cs a

def cellsErase : List Host.Cell → Nat → List Host.Cell
  | [], _ => []
  | c :: cs, a => if c.1 = a then cellsErase cs a else c :: cellsErase cs a

/-- Put a cell before the first one with a higher address. -/
def cellsInsert : List Host.Cell → Nat → Byte → List Host.Cell
  | [], a, v => [(a, v)]
  | c :: cs, a, v => if a < c.1 then (a, v) :: c :: cs else c :: cellsInsert cs a v

def Memory.get (m : Memory) (a : Nat) : Byte := cellsGet m.cells a

/-- Set one byte; writing 0x00 removes the entry, so that equal memories are equal lists. -/
def Memory.put (m : Memory) (a : Nat) (v : Byte) : Memory :=
  { m with cells := if v = 0#8 then cellsErase m.cells a else cellsInsert (cellsErase m.cells a) a v }

/-- The canonical form: addresses strictly rising and below `MEM_SIZE`, no entry equal to 0x00, and `MEM_SIZE` at most
2^32 (20_memory.md R22, 00_scope.md R4). -/
abbrev Memory.wf (m : Memory) : Prop :=
  m.cells.Pairwise (fun c c' => c.1 < c'.1) ∧
    (∀ c ∈ m.cells, c.2 ≠ 0#8 ∧ c.1 < m.size) ∧ m.size ≤ Config.addressSpace

/-! ## Memory accessors (20_memory.md R24 to R26) -/

/-- `MemReadU8(a)` (R24). -/
def memReadU8 (m : Memory) (a : Nat) : Except FaultReason Byte :=
  if a < m.size then .ok (m.get a) else .error (.outOfBounds a)

/-- `MemWriteU8(a, v8)` (R24). -/
def memWriteU8 (m : Memory) (a : Nat) (v : Byte) : Except FaultReason Memory :=
  if a < m.size then .ok (m.put a v) else .error (.outOfBounds a)

/-- `MemReadU32(a)` (R25): four byte reads in rising order; `a + i` does not wrap (R24, decision D16). -/
def memReadU32 (m : Memory) (a : Word) : Except FaultReason Word := do
  let b0 ← memReadU8 m a.toNat
  let b1 ← memReadU8 m (a.toNat + 1)
  let b2 ← memReadU8 m (a.toNat + 2)
  let b3 ← memReadU8 m (a.toNat + 3)
  return le32 b0 b1 b2 b3

/-- `MemWriteU32(a, v)` (R26): byte `i` of `v` to `a + i`, in rising order. -/
def memWriteU32 (m : Memory) (a : Word) (v : Word) : Except FaultReason Memory := do
  let m1 ← memWriteU8 m a.toNat (byteOf v 0)
  let m2 ← memWriteU8 m1 (a.toNat + 1) (byteOf v 1)
  let m3 ← memWriteU8 m2 (a.toNat + 2) (byteOf v 2)
  memWriteU8 m3 (a.toNat + 3) (byteOf v 3)

/-! ## The stack (42_stack.md R64, R65): one primitive for every push and every pop -/

/-- `Push32(v)`: "decrement ESP by 4, store `value` at the new ESP" (R64). -/
def push32 (s : State) (v : Word) : Except FaultReason State := do
  let s1 := s.setReg .ESP (s.getReg .ESP - 4#32)
  let m ← memWriteU32 s1.mem (s1.getReg .ESP) v
  return s1.setMem m

/-- `Pop32()`: "read dword at ESP, increment ESP by 4, return the value" (R65). -/
def pop32 (s : State) : Except FaultReason (Word × State) := do
  let v ← memReadU32 s.mem (s.getReg .ESP)
  return (v, s.setReg .ESP (s.getReg .ESP + 4#32))

/-! ## How an instruction ends -/

/-- `raise Fault(reason)`: the one way into `FAULTED` (R86, R91, R95). No state is saved and no handler is entered: the
outcome carries the reason and the trace already emitted (decision D11; log entry 1). -/
def raise (s : State) (reason : FaultReason) : Host.Outcome State Fault Refusal :=
  .fault (.faulted reason s.trace)

/-- `halt(reason)`: put the block in `HALTED(reason)`; nothing else changes (R85, R90; log entry 3). -/
def State.halt (s : State) (reason : HaltReason) : State := { s with status := .halted reason }

/-- A handler "(CPU State) -> Result<(), Fault>" (45_execution_loop.md R83): it completes with its state, or the fault
it met ends the run (R86). `s` is the state the handler began in. -/
def complete (s : State) : Except FaultReason State → Host.Outcome State Fault Refusal
  | .ok t => .next t
  | .error reason => raise s reason

end Sys2Proof.Machine
end

