-- ==== Sys2Proof/Machine/Operands.lean ====
section
/-! DEFINITION. Operand access through an addressing descriptor (40_addressing_operands.md R54 to R59) and the widening
of the immediates (30_encoding.md R45). -/

namespace Sys2Proof.Machine

/-- A displacement as the 32-bit value added to a base: disp8 sign-extended, disp32 raw (R45, R54). A descriptor that
has none adds nothing; `EffectiveAddress` asks for it only where R42 gives one (log entry 20). -/
def dispValue : Disp → Word
  | .absent   => 0#32
  | .disp8 b  => sext32 b
  | .disp32 w => w

/-- `EffectiveAddress(d)` (R54): mode 3 is checked first, then the SIB form, before any register is read (decision
D12); sums wrap modulo 2^32 (log entry 9). Every descriptor with `rm = 4` that reaches the second test has its SIB byte
(R41; log entry 20). -/
def effectiveAddress (x : Regs) (d : Descriptor) : Except FaultReason Word :=
  if d.mode = 3#2 then .error .invalidAddressingMode
  else if d.rm = 4#3 then .error (.unsupportedSIB (d.sib.getD 0#8))
  else if d.mode = 0#2 ∧ d.rm = 5#3 then .ok (dispValue d.disp)
  else if d.mode = 0#2 then readReg x d.rm.toNat
  else do
    let base ← readReg x d.rm.toNat
    return base + dispValue d.disp

/-- `ReadOperand32(d)` (R55). -/
def readOperand32 (s : State) (d : Descriptor) : Except FaultReason Word :=
  if d.mode = 3#2 then readReg s.regs d.rm.toNat
  else do
    let a ← effectiveAddress s.regs d
    memReadU32 s.mem a

/-- `WriteOperand32(d, v)` (R56). -/
def writeOperand32 (s : State) (d : Descriptor) (v : Word) : Except FaultReason State :=
  if d.mode = 3#2 then do
    let x ← writeReg s.regs d.rm.toNat v
    return s.setRegs x
  else do
    let a ← effectiveAddress s.regs d
    let m ← memWriteU32 s.mem a v
    return s.setMem m

/-- `RegOperand(d)`, read: the reg field as a register selector (R57). -/
def regOperand (s : State) (d : Descriptor) : Except FaultReason Word := readReg s.regs d.regOrOpcode.toNat

/-- `RegOperand(d)`, written (R57). -/
def setRegOperand (s : State) (d : Descriptor) (v : Word) : Except FaultReason State := do
  let x ← writeReg s.regs d.regOrOpcode.toNat v
  return s.setRegs x

/-- The immediate of 6A widened: zero-extended, or sign-extended where `PUSH_IMM8_SIGN_EXTEND` is set (R45, R69,
decision D6; log entry 8). -/
def pushImm8Value (signExtend : Bool) (b : Byte) : Word := if signExtend then sext32 b else zext32 b

end Sys2Proof.Machine
end

