-- ==== Sys2Proof/Machine/Flags.lean ====
section
/-! DEFINITION. The arithmetic laws of 43_arithmetic.md R71: the three results, modulo 2^32. There is no flag
computation to write: "no instruction in scope reads or writes condition flags" (R17, R71), so FLAGS is no argument and
no result of any operation of the machine. -/

namespace Sys2Proof.Machine

/-- ADD: `(a + b) mod 2^32` (R71; log entry 9). -/
def add32 (a b : Word) : Word := a + b

/-- SUB: `(a - b) mod 2^32` (R71). -/
def sub32 (a b : Word) : Word := a - b

/-- INC: `(a + 1) mod 2^32` (R71). -/
def inc32 (a : Word) : Word := a + 1#32

/-- A read-modify-write of the r/m operand: read, compute, write with the same descriptor (R59, R72 to R77). -/
def modifyOperand32 (s : State) (d : Descriptor) (f : Word → Word) : Except FaultReason State := do
  let a ← readOperand32 s d
  writeOperand32 s d (f a)

end Sys2Proof.Machine
end

