-- ==== Sys2Proof/Machine/Arithmetic.lean ====
section
/-! DEFINITION. The arithmetic instructions (43_arithmetic.md R72, R74, R75, R77). -/

namespace Sys2Proof.Machine

/-- ADD r/m32, r32 (01 /r), R72: the operand is read before the register. -/
def execAddRm32R32 (d : Descriptor) (s : State) : Host.Outcome State Fault Refusal :=
  complete s do
    let s1 := s.advance (1 + d.length)
    let a ← readOperand32 s1 d
    let b ← regOperand s1 d
    writeOperand32 s1 d (add32 a b)

/-- ADD r/m32, imm8 (83 /0), R74: the immediate is sign-extended. -/
def execAddRm32Imm8 (d : Descriptor) (imm : Byte) (s : State) : Host.Outcome State Fault Refusal :=
  complete s (modifyOperand32 (s.advance (1 + d.length + 1)) d (fun a => add32 a (sext32 imm)))

/-- SUB r/m32, imm8 (83 /5), R75: the immediate is sign-extended. -/
def execSubRm32Imm8 (d : Descriptor) (imm : Byte) (s : State) : Host.Outcome State Fault Refusal :=
  complete s (modifyOperand32 (s.advance (1 + d.length + 1)) d (fun a => sub32 a (sext32 imm)))

/-- INC r/m32 (FF /0), R77. -/
def execIncRm32 (d : Descriptor) (s : State) : Host.Outcome State Fault Refusal :=
  complete s (modifyOperand32 (s.advance (1 + d.length)) d inc32)

end Sys2Proof.Machine
end

