-- ==== Sys2Proof/Machine/ControlTransfer.lean ====
section
/-! DEFINITION. The control transfer instructions (44_control_transfer.md R78 to R82). A target is relative to the
instruction's end, modulo 2^32, and any 32-bit value is a legal target (R78). -/

namespace Sys2Proof.Machine

/-- CALL rel32 (E8), R79: the return address `eip + 5` is pushed, then EIP moves. -/
def execCallRel32 (rel : Word) (s : State) : Host.Outcome State Fault Refusal :=
  complete s do
    let s1 ← push32 s (s.eip + 5#32)
    return s1.setEip (s.eip + 5#32 + rel)

/-- RET (C3), R80. -/
def execRet (s : State) : Host.Outcome State Fault Refusal :=
  complete s do
    let (v, s1) ← pop32 s
    return s1.setEip v

/-- JMP rel8 (EB), R81. -/
def execJmpRel8 (rel : Byte) (s : State) : Host.Outcome State Fault Refusal :=
  complete s (.ok (s.setEip (s.eip + 2#32 + sext32 rel)))

/-- JMP rel32 (E9), R82. -/
def execJmpRel32 (rel : Word) (s : State) : Host.Outcome State Fault Refusal :=
  complete s (.ok (s.setEip (s.eip + 5#32 + rel)))

end Sys2Proof.Machine
end

