-- ==== Sys2Proof/Machine/DataTransfer.lean ====
section
/-! DEFINITION. The data transfer instructions (41_data_transfer.md R60 to R63). -/

namespace Sys2Proof.Machine

/-- MOV r32, imm32 (B8+r), R60. -/
def execMovR32Imm32 (r : Field3) (imm : Word) (s : State) : Host.Outcome State Fault Refusal :=
  complete s do
    let x ← writeReg s.regs r.toNat imm
    return (s.setRegs x).advance 5

/-- MOV r/m32, r32 (89 /r), R61. -/
def execMovRm32R32 (d : Descriptor) (s : State) : Host.Outcome State Fault Refusal :=
  complete s do
    let s1 := s.advance (1 + d.length)
    let v ← regOperand s1 d
    writeOperand32 s1 d v

/-- MOV r32, r/m32 (8B /r), R62. -/
def execMovR32Rm32 (d : Descriptor) (s : State) : Host.Outcome State Fault Refusal :=
  complete s do
    let s1 := s.advance (1 + d.length)
    let v ← readOperand32 s1 d
    setRegOperand s1 d v

/-- MOV r/m32, imm32 (C7 /any), R63: the reg field is not read (R50, decision D8; log entry 13). -/
def execMovRm32Imm32 (d : Descriptor) (imm : Word) (s : State) : Host.Outcome State Fault Refusal :=
  complete s (writeOperand32 (s.advance (1 + d.length + 4)) d imm)

end Sys2Proof.Machine
end

