-- ==== Sys2Proof/Machine/Stack.lean ====
section
/-! DEFINITION. The stack instructions (42_stack.md R66 to R70). -/

namespace Sys2Proof.Machine

/-- PUSH r32 (50+r), R66: the value is fixed before ESP moves, so PUSH ESP stores the old ESP (R64; log entry 25). -/
def execPushR32 (r : Field3) (s : State) : Host.Outcome State Fault Refusal :=
  complete s do
    let v ← readReg s.regs r.toNat
    let s1 ← push32 s v
    return s1.advance 1

/-- POP r32 (58+r), R67: the register is written after ESP has moved (decision D12; log entry 19). -/
def execPopR32 (r : Field3) (s : State) : Host.Outcome State Fault Refusal :=
  complete s do
    let (v, s1) ← pop32 s
    let x ← writeReg s1.regs r.toNat v
    return (s1.setRegs x).advance 1

/-- PUSH imm32 (68), R68. -/
def execPushImm32 (imm : Word) (s : State) : Host.Outcome State Fault Refusal :=
  complete s do
    let s1 ← push32 s imm
    return s1.advance 5

/-- PUSH imm8 (6A), R69, for either value of the parameter `PUSH_IMM8_SIGN_EXTEND`. -/
def pushImm8With (signExtend : Bool) (imm : Byte) (s : State) : Host.Outcome State Fault Refusal :=
  complete s do
    let s1 ← push32 s (pushImm8Value signExtend imm)
    return s1.advance 2

/-- PUSH imm8 (6A), R69, on this hardware (log entry 8). -/
def execPushImm8 (imm : Byte) (s : State) : Host.Outcome State Fault Refusal :=
  pushImm8With Config.pushImm8SignExtend imm s

/-- LEAVE (C9), R70: ESP takes EBP's value, then the pop into EBP runs at that ESP (90_conflicts.md C1). -/
def execLeave (s : State) : Host.Outcome State Fault Refusal :=
  complete s do
    let (v, s1) ← pop32 (s.setReg .ESP (s.getReg .EBP))
    return (s1.setReg .EBP v).advance 1

end Sys2Proof.Machine
end

