-- ==== Sys2Proof/Machine/Terminal.lean ====
section
/-! DEFINITION. The rows that end the run: an extension of a group opcode without a meaning is a hard fault
(43_arithmetic.md R73, R76), a byte without a handler a graceful halt (45_execution_loop.md R85). "preserved as
specified because it appears deliberate in the source" (30_encoding.md R51). -/

namespace Sys2Proof.Machine

/-- "any other value is a hard fault" (30_encoding.md R48, R49): the diagnostic "identifies the opcode and the offending
field value" (R73). No operand is accessed and no immediate is fetched. -/
def raiseGroupExtension (opcode : Byte) (ext : Field3) (s : State) : Host.Outcome State Fault Refusal :=
  raise s (.unimplementedGroupExtension opcode ext)

/-- 83 /1: `FAULTED(UnimplementedGroupExtension(0x83, 1))` (R73). -/
def execGroup83Ext1 (_d : Descriptor) (s : State) : Host.Outcome State Fault Refusal :=
  raiseGroupExtension 0x83#8 1#3 s

/-- 83 /2: `FAULTED(UnimplementedGroupExtension(0x83, 2))` (R73). -/
def execGroup83Ext2 (_d : Descriptor) (s : State) : Host.Outcome State Fault Refusal :=
  raiseGroupExtension 0x83#8 2#3 s

/-- 83 /3: `FAULTED(UnimplementedGroupExtension(0x83, 3))` (R73). -/
def execGroup83Ext3 (_d : Descriptor) (s : State) : Host.Outcome State Fault Refusal :=
  raiseGroupExtension 0x83#8 3#3 s

/-- 83 /4: `FAULTED(UnimplementedGroupExtension(0x83, 4))` (R73). -/
def execGroup83Ext4 (_d : Descriptor) (s : State) : Host.Outcome State Fault Refusal :=
  raiseGroupExtension 0x83#8 4#3 s

/-- 83 /6: `FAULTED(UnimplementedGroupExtension(0x83, 6))` (R73). -/
def execGroup83Ext6 (_d : Descriptor) (s : State) : Host.Outcome State Fault Refusal :=
  raiseGroupExtension 0x83#8 6#3 s

/-- 83 /7: `FAULTED(UnimplementedGroupExtension(0x83, 7))` (R73). -/
def execGroup83Ext7 (_d : Descriptor) (s : State) : Host.Outcome State Fault Refusal :=
  raiseGroupExtension 0x83#8 7#3 s

/-- FF /1: `FAULTED(UnimplementedGroupExtension(0xFF, 1))` (R76). -/
def execGroupFFExt1 (_d : Descriptor) (s : State) : Host.Outcome State Fault Refusal :=
  raiseGroupExtension 0xFF#8 1#3 s

/-- FF /2: `FAULTED(UnimplementedGroupExtension(0xFF, 2))` (R76). -/
def execGroupFFExt2 (_d : Descriptor) (s : State) : Host.Outcome State Fault Refusal :=
  raiseGroupExtension 0xFF#8 2#3 s

/-- FF /3: `FAULTED(UnimplementedGroupExtension(0xFF, 3))` (R76). -/
def execGroupFFExt3 (_d : Descriptor) (s : State) : Host.Outcome State Fault Refusal :=
  raiseGroupExtension 0xFF#8 3#3 s

/-- FF /4: `FAULTED(UnimplementedGroupExtension(0xFF, 4))` (R76). -/
def execGroupFFExt4 (_d : Descriptor) (s : State) : Host.Outcome State Fault Refusal :=
  raiseGroupExtension 0xFF#8 4#3 s

/-- FF /5: `FAULTED(UnimplementedGroupExtension(0xFF, 5))` (R76). -/
def execGroupFFExt5 (_d : Descriptor) (s : State) : Host.Outcome State Fault Refusal :=
  raiseGroupExtension 0xFF#8 5#3 s

/-- FF /6: `FAULTED(UnimplementedGroupExtension(0xFF, 6))` (R76). -/
def execGroupFFExt6 (_d : Descriptor) (s : State) : Host.Outcome State Fault Refusal :=
  raiseGroupExtension 0xFF#8 6#3 s

/-- FF /7: `FAULTED(UnimplementedGroupExtension(0xFF, 7))` (R76). -/
def execGroupFFExt7 (_d : Descriptor) (s : State) : Host.Outcome State Fault Refusal :=
  raiseGroupExtension 0xFF#8 7#3 s

/-- A byte without a handler: "the status becomes `HALTED(UnknownOpcode(op))`. EIP stays at the address of that byte,
nothing else changes" (R85). -/
def execNoHandler (op : Byte) (s : State) : Host.Outcome State Fault Refusal :=
  .next (s.halt (.unknownOpcode op))

end Sys2Proof.Machine
end

