-- ==== Sys2Proof/Machine/Dispatch.lean ====
section
/-! DEFINITION. One arm per row of spec/opcode_table.json, each one call of its meaning. -/

namespace Sys2Proof.Machine

def exec (i : Instr) (s : State) : Host.Outcome State Fault Refusal :=
  match i with
  | .addRm32R32 d => Sys2Proof.Machine.execAddRm32R32 d s
  | .pushR32 r => Sys2Proof.Machine.execPushR32 r s
  | .popR32 r => Sys2Proof.Machine.execPopR32 r s
  | .pushImm32 imm => Sys2Proof.Machine.execPushImm32 imm s
  | .pushImm8 imm => Sys2Proof.Machine.execPushImm8 imm s
  | .addRm32Imm8 d imm => Sys2Proof.Machine.execAddRm32Imm8 d imm s
  | .subRm32Imm8 d imm => Sys2Proof.Machine.execSubRm32Imm8 d imm s
  | .group83Ext1 d => Sys2Proof.Machine.execGroup83Ext1 d s
  | .group83Ext2 d => Sys2Proof.Machine.execGroup83Ext2 d s
  | .group83Ext3 d => Sys2Proof.Machine.execGroup83Ext3 d s
  | .group83Ext4 d => Sys2Proof.Machine.execGroup83Ext4 d s
  | .group83Ext6 d => Sys2Proof.Machine.execGroup83Ext6 d s
  | .group83Ext7 d => Sys2Proof.Machine.execGroup83Ext7 d s
  | .movRm32R32 d => Sys2Proof.Machine.execMovRm32R32 d s
  | .movR32Rm32 d => Sys2Proof.Machine.execMovR32Rm32 d s
  | .movR32Imm32 r imm => Sys2Proof.Machine.execMovR32Imm32 r imm s
  | .ret => Sys2Proof.Machine.execRet s
  | .movRm32Imm32 d imm => Sys2Proof.Machine.execMovRm32Imm32 d imm s
  | .leave => Sys2Proof.Machine.execLeave s
  | .callRel32 rel => Sys2Proof.Machine.execCallRel32 rel s
  | .jmpRel32 rel => Sys2Proof.Machine.execJmpRel32 rel s
  | .jmpRel8 rel => Sys2Proof.Machine.execJmpRel8 rel s
  | .incRm32 d => Sys2Proof.Machine.execIncRm32 d s
  | .groupFFExt1 d => Sys2Proof.Machine.execGroupFFExt1 d s
  | .groupFFExt2 d => Sys2Proof.Machine.execGroupFFExt2 d s
  | .groupFFExt3 d => Sys2Proof.Machine.execGroupFFExt3 d s
  | .groupFFExt4 d => Sys2Proof.Machine.execGroupFFExt4 d s
  | .groupFFExt5 d => Sys2Proof.Machine.execGroupFFExt5 d s
  | .groupFFExt6 d => Sys2Proof.Machine.execGroupFFExt6 d s
  | .groupFFExt7 d => Sys2Proof.Machine.execGroupFFExt7 d s
  | .noHandler op => Sys2Proof.Machine.execNoHandler op s

end Sys2Proof.Machine
end

