-- ==== Sys2Proof/Machine/Fetch.lean ====
section
/-! DEFINITION. The instruction-fetch accessors (20_memory.md R31) and the machine's own fetch of an instruction: the
decoder over the bytes at EIP. -/

namespace Sys2Proof.Machine

/-- The address `eip + k` of an instruction-stream read, modulo 2^32 (R7, R31; log entry 14). -/
def fetchAddress (s : State) (k : Nat) : Word := s.eip + BitVec.ofNat 32 k

/-- `FetchU8(k)` (R31). -/
def fetchU8 (s : State) (k : Nat) : Except FaultReason Byte := memReadU8 s.mem (fetchAddress s k).toNat

/-- `FetchU32(k)` (R31). -/
def fetchU32 (s : State) (k : Nat) : Except FaultReason Word := memReadU32 s.mem (fetchAddress s k)

/-- `FetchI8(k)`: the same read as a signed value (R31). -/
def fetchI8 (s : State) (k : Nat) : Except FaultReason Int := do
  let b ← fetchU8 s k
  return s8 b

/-- `FetchI32(k)`: the same read as a signed value (R31). -/
def fetchI32 (s : State) (k : Nat) : Except FaultReason Int := do
  let w ← fetchU32 s k
  return s32 w

/-- The operand read of an 83 handler, for its fault alone: a read has no side effect (R30), and the meaning reads the
operand again (log entry 11). -/
def operandReadFault (s : State) (d : Descriptor) : Except FaultReason Unit := do
  let _v ← readOperand32 s d
  return ()

/-- The bytes at EIP as the decoder's source. -/
def fetchSource (s : State) : Source FaultReason where
  u8 := fetchU8 s
  u32 := fetchU32 s
  operandRead := operandReadFault s

/-- The instruction at EIP, or the first fault in the order of 60_exceptions.md R94. -/
def fetchInstr (s : State) : Except FaultReason Instr := decodeFrom (fetchSource s)

/-- `bytes` placed at `a`, `a + 1`, ... (addresses modulo 2^32). -/
def placeBytes (m : Memory) (a : Word) : List Byte → Memory
  | [] => m
  | b :: bs => placeBytes (m.put a.toNat b) (a + 1#32) bs

/-- The memory grown, where it is too small, to hold an instruction of the longest form at `a`. -/
def growFor (m : Memory) (a : Word) : Memory :=
  { m with size := max m.size (min (a.toNat + maxLength) Config.addressSpace) }

end Sys2Proof.Machine
end

