-- ==== Sys2Proof/Machine/Loop.lean ====
section
/-! DEFINITION. The sequencer (45_execution_loop.md R84 to R87): the trace event, the run of the handler, the
post-instruction checks. -/

namespace Sys2Proof.Machine

/-- `emit Trace(eip, op)` (R84, 60_exceptions.md R99). -/
def State.emit (s : State) (op : Byte) : State := { s with trace := s.trace ++ [{ eip := s.eip, opcode := op }] }

/-- The tests of the new EIP, in this order: 0, then above the bound; the bound itself does not halt (R87, decision D9;
log entry 15). They do not run after a halt. -/
def postChecks (s : State) : State :=
  if s.status = .running then
    if s.eip = 0#32 then s.halt .sentinelEIP
    else if Config.safetyBound < s.eip then s.halt .safetyBound
    else s
  else s

/-- After the handler: a state that completed is checked, a fault ends the run (R86, R87). -/
def afterHandler : Host.Outcome State Fault Refusal → Host.Outcome State Fault Refusal
  | .next t => .next (postChecks t)
  | .fault f => .fault f
  | .refused r => .refused r

/-- Dispatch and run, the trace event being emitted: the handler's own fetch faults end the run like any other (R86). -/
def runHandler (s : State) : Host.Outcome State Fault Refusal :=
  match fetchInstr s with
  | .error reason => raise s reason
  | .ok i => afterHandler (exec i s)

/-- `Step()` while RUNNING (R84): the opcode fetch, then the trace event, then the handler. -/
def runningStep (s : State) : Host.Outcome State Fault Refusal :=
  match fetchU8 s 0 with
  | .error reason => raise s reason
  | .ok op => runHandler (s.emit op)

end Sys2Proof.Machine
end

