-- ==== Sys2Proof/Machine/Step.lean ====
section
/-! DEFINITION. One step of the block (45_execution_loop.md R84, R88) and the placing of a word where it fetches next. -/

namespace Sys2Proof.Machine

/-- "One step runs only while the status is `RUNNING`" (R84); no step is defined from a terminal status (R88). -/
def step (s : State) : Host.Outcome State Fault Refusal :=
  match s.status with
  | .running => runningStep s
  | .halted reason => .refused (.terminal (.halted reason))
  | .faulted reason => .refused (.terminal (.faulted reason))

/-- A word of spec/opcode_table.json stored where the next step fetches: at EIP, zeros after it up to the longest
instruction, memory grown to hold it, the status RUNNING. It stands for the host's load of an image before reset (log
entries 5 and 24). -/
def State.withFetchWord (s : State) (nbits w : Nat) : State :=
  { s with mem := placeBytes (growFor s.mem s.eip) s.eip (tableBytes nbits w), status := .running }

end Sys2Proof.Machine
end

