-- ==== Sys2Proof/Machine/Boot.lean ====
section
/-! DEFINITION. The reset procedure with its launch inputs (70_reset_and_hazards.md R102): what the host's image loader
hands over before a run (60_exceptions.md R101). -/

namespace Sys2Proof.Machine

/-- The image in canonical form, its first byte at `base`; zero bytes are not listed. -/
def imageCells : Nat → List Byte → List Host.Cell
  | _, [] => []
  | base, b :: bs => if b = 0#8 then imageCells (base + 1) bs else (base, b) :: imageCells (base + 1) bs

/-- `Reset(LOAD_BASE, INIT_SP, IMAGE)` (R102). An image that would not fit below 2^32 has no run (00_scope.md R4,
decision D17). -/
def boot (loadBase initSp : Word) (image : List Byte) : Option State :=
  if loadBase.toNat + image.length ≤ Config.addressSpace then
    some
      { regs := Regs.reset.set .ESP initSp
        eip := loadBase
        flags := 0#32
        mem := { size := loadBase.toNat + image.length, cells := imageCells loadBase.toNat image }
        status := .running
        trace := [] }
  else none

/-- The reset of this hardware: `LOAD_BASE` and `INIT_SP` are fixed at 0x7C00 (00_scope.md R4, decision D20). -/
def bootImage (image : List Byte) : Option State := boot Config.loadBase Config.initSp image

end Sys2Proof.Machine
end

