-- ==== Sys2Proof/Machine/Output.lean ====
section
/-! DEFINITION. What the host sees of a run (60_exceptions.md R92, R99, R101; 00_scope.md R5): the terminal status, the
exit code, the dump, the trace, and the spec's default text of them (`HOST_FORMAT`; log entry 17). -/

namespace Sys2Proof.Machine

/-- The run status an outcome of a step leaves the block in (10_state.md R19): a fault is `FAULTED(reason)`; a refusal
is no step. -/
def statusAfter : Host.Outcome State Fault Refusal → Option RunStatus
  | .next s => some s.status
  | .fault (.faulted reason _) => some (.faulted reason)
  | .refused _ => none

/-- The trace emitted up to and with an outcome; the events before a fault are still output (R92, R99). -/
def traceAfter : Host.Outcome State Fault Refusal → Option (List TraceEvent)
  | .next s => some s.trace
  | .fault (.faulted _ trace) => some trace
  | .refused _ => none

/-- Exit code 0 on a graceful halt, 1 on a hard fault (R92). -/
def exitCode : RunStatus → Option Nat
  | .running => none
  | .halted _ => some 0
  | .faulted _ => some 1

/-- The registers in dump order: index order (R92, decision D15). -/
def dumpOrder : List Reg := [.EAX, .ECX, .EDX, .EBX, .ESP, .EBP, .ESI, .EDI]

/-- The dump: 8 registers, then EIP (R92). FLAGS and memory are not dumped. -/
structure Dump where
  registers : List (Reg × Word)
  eip       : Word
deriving DecidableEq, Repr

def dumpOf (s : State) : Dump := { registers := dumpOrder.map (fun r => (r, s.getReg r)), eip := s.eip }

/-- A dump is made on `HALTED` only (R92). -/
def dump (s : State) : Option Dump :=
  match s.status with
  | .halted _ => some (dumpOf s)
  | .running => none
  | .faulted _ => none

/-! ## The default host text (R101): no claim about the block depends on it -/

def Reg.name : Reg → String
  | .EAX => "EAX"
  | .ECX => "ECX"
  | .EDX => "EDX"
  | .EBX => "EBX"
  | .ESP => "ESP"
  | .EBP => "EBP"
  | .ESI => "ESI"
  | .EDI => "EDI"

def hexDigit (n : Nat) : Char := Char.ofNat (if n < 10 then 0x30 + n else 0x37 + n)

/-- `n` uppercase hexadecimal digits, zero-padded. -/
def hexDigits : Nat → Nat → List Char
  | 0, _ => []
  | n + 1, v => hexDigit (v / 16 ^ n % 16) :: hexDigits n v

/-- Uppercase hexadecimal without padding. -/
def hexUnpadded (v : Word) : List Char :=
  match (hexDigits 8 v.toNat).dropWhile (· = '0') with
  | [] => ['0']
  | c :: cs => c :: cs

/-- `EIP = <eip>, Code = <op>` (R101). -/
def traceLine (e : TraceEvent) : String :=
  "EIP = " ++ String.ofList (hexUnpadded e.eip) ++ ", Code = " ++ String.ofList (hexDigits 2 e.opcode.toNat)

/-- `<NAME> = <8 hex digits>` (R101). -/
def dumpLine (name : String) (v : Word) : String := name ++ " = " ++ String.ofList (hexDigits 8 v.toNat)

/-- The nine lines of a dump (R92, R101). -/
def dumpLines (d : Dump) : List String :=
  d.registers.map (fun p => dumpLine p.1.name p.2) ++ [dumpLine "EIP" d.eip]

end Sys2Proof.Machine
end

