-- ==== Sys2Proof/Safety.lean ====
section
/-! DEFINITION. The terms in which claims about runs are made: the invariant of the block, the states of a run, and a
safe run. -/

namespace Sys2Proof.Machine

/-- What the status says of EIP and the byte there (45_execution_loop.md R85, R87; 60_exceptions.md R90; the strict bound
is the spec's decision D9, log entry 15). A FAULTED block has no state in the model (R95). -/
def StatusFits (s : State) : Prop :=
  match s.status with
  | .running => s.eip ≠ 0#32 ∧ s.eip ≤ Config.safetyBound
  | .halted (.unknownOpcode op) => op ∉ handledOpcodes ∧ memReadU8 s.mem s.eip.toNat = .ok op
  | .halted .sentinelEIP => s.eip = 0#32
  | .halted .safetyBound => Config.safetyBound < s.eip
  | .faulted _ => False

/-- The invariant of the block: memory in canonical form (the model's own representation: DESIGN CHOICE, log entry 16)
and of at least `LOAD_BASE` bytes (R22), and a status that fits EIP. -/
structure Inv (s : State) : Prop where
  memWf    : s.mem.wf
  memSize  : Config.loadBase.toNat ≤ s.mem.size
  statusOk : StatusFits s

/-- The states of a run from `s` (R88). -/
inductive Reaches : State → State → Prop where
  | refl (s : State) : Reaches s s
  | step {s t u : State} : Reaches s t → Sys2Proof.Machine.step t = .next u → Reaches s u

/-- A step that ends the run neither in a fault nor for want of a step. -/
def SafeStep (s : State) : Prop := ∃ t, step s = .next t

/-- A run that goes on or halts gracefully: every RUNNING state it reaches has a next state. -/
def SafeRun (s : State) : Prop := ∀ t, Reaches s t → t.status = .running → SafeStep t

/-- Every byte outside the dword at `a` reads in `m'` as in `m`. -/
def MemSameOutside (a : Word) (m m' : Memory) : Prop :=
  ∀ b : Nat, (b < a.toNat ∨ a.toNat + 4 ≤ b) → memReadU8 m' b = memReadU8 m b

/-- `m'` is `m` with the dword `v` stored at `a`: it reads back, and every other byte reads as before (R26). -/
def StoredAt (a v : Word) (m m' : Memory) : Prop := memReadU32 m' a = .ok v ∧ MemSameOutside a m m'

/-- Every byte of memory reads in `m'` as in `m`. -/
def MemSame (m m' : Memory) : Prop := ∀ b : Nat, memReadU8 m' b = memReadU8 m b

/-- The bytes of the list stand in memory at `a`, `a + 1`, ... -/
def HoldsAt (m : Memory) (a : Nat) (bs : List Byte) : Prop := ∀ k b, bs[k]? = some b → memReadU8 m (a + k) = .ok b

/-- The instruction `i` is fetched as the bytes `bs`: they decode to it whatever follows, and where byte `k` of them is the
first at or beyond `MEM_SIZE`, a step of a RUNNING block faults at that byte, with the trace event emitted if the opcode
was fetched (30_encoding.md R38, 20_memory.md R31, 60_exceptions.md R94). The operand of 83 /0 and 83 /5 is read before
their immediate, so a cut there is met only if the operand reads (43_arithmetic.md R74). An instruction that memory of
2^32 bytes cuts at its top is left out: its next byte is at address 0 (log entry 14). -/
structure FetchedAs (i : Instr) (bs : List Byte) : Prop where
  length  : i.length = bs.length
  decodes : ∀ rest, decode (bs ++ rest) = .ok i
  cutOff  : ∀ (s : State) (k : Nat), s.status = .running → k < bs.length → s.mem.size ≤ s.eip.toNat + k →
    s.eip.toNat + k < 2 ^ 32 → HoldsAt s.mem s.eip.toNat (bs.take k) →
    (∀ d, operandBeforeImm i = some d → k = 1 + d.length → ∃ v, readOperand32 s d = .ok v) →
    step s = .fault (.faulted (.outOfBounds (s.eip.toNat + k))
      (s.trace ++ (bs.take (min k 1)).map (fun op => { eip := s.eip, opcode := op })))

/-- Every register but those of the list holds in `t` what it holds in `s`. -/
def RegsSameExcept (written : List Reg) (s t : State) : Prop := ∀ r : Reg, r ∉ written → t.getReg r = s.getReg r

/-- The r/m operand that an instruction writes: ADD (01, 83 /0), SUB (83 /5), INC (FF /0) and MOV (89, C7). -/
def rmDestination : Instr → Option Descriptor
  | .addRm32R32 d => some d
  | .addRm32Imm8 d _ => some d
  | .subRm32Imm8 d _ => some d
  | .incRm32 d => some d
  | .movRm32R32 d => some d
  | .movRm32Imm32 d _ => some d
  | _ => none

/-- The address of the dword that an instruction stores to (20_memory.md R29): the lowered ESP for the pushes (R64), the
effective address for a memory form of an r/m destination (R56). -/
def storeAddress (i : Instr) (s : State) : Option Word :=
  match i with
  | .pushR32 _ | .pushImm32 _ | .pushImm8 _ | .callRel32 _ => some (s.getReg .ESP - 4#32)
  | _ => (rmDestination i).bind fun d => (effectiveAddress s.regs d).toOption

/-- The dword that an instruction stores where the dword `old` stands, by its own rule: 43_arithmetic.md R72 to R77,
41_data_transfer.md R61 and R63, 42_stack.md R66 to R69, 44_control_transfer.md R79. -/
def storedDword (i : Instr) (s : State) (old : Word) : Option Word :=
  match i with
  | .addRm32R32 d => some (old + s.regs.get (Reg.ofField d.regOrOpcode))
  | .addRm32Imm8 _ imm => some (old + imm.signExtend 32)
  | .subRm32Imm8 _ imm => some (old - imm.signExtend 32)
  | .incRm32 _ => some (old + 1#32)
  | .movRm32R32 d => some (s.regs.get (Reg.ofField d.regOrOpcode))
  | .movRm32Imm32 _ imm => some imm
  | .pushR32 r => some (s.regs.get (Reg.ofField r))
  | .pushImm32 imm => some imm
  | .pushImm8 imm => some (imm.zeroExtend 32)
  | .callRel32 _ => some (s.eip + 5#32)
  | _ => none

/-- An outcome with a function applied to its next state. -/
def mapNext (f : State → State) : Host.Outcome State Fault Refusal → Host.Outcome State Fault Refusal
  | .next s => .next (f s)
  | .fault r => .fault r
  | .refused r => .refused r

/-- FLAGS, the status and the trace, which no completing handler changes. -/
def ControlSame (s t : State) : Prop := t.flags = s.flags ∧ t.status = s.status ∧ t.trace = s.trace

end Sys2Proof.Machine
end

