-- ==== Sys2Proof/Certificates/Slice0/Obligations.lean ====
section
/-! DEFINITION. The statements for the provers. Each docstring names the rule of spec/ it formalises; `StoredAt`, `MemSame`,
`MemSameOutside`, `RegsSameExcept`, `FetchedAs`, `ControlSame`, `HoldsAt`, `rmDestination`,
`storeAddress`, `storedDword`, `mapNext`, `Inv` and `Reaches` are in Sys2Proof/Safety.lean. -/

open Sys2Proof Sys2Proof.Machine

/-! ## Encoding and decoding (30_encoding.md) -/

/-- Decode after encode, for all 31 rows of the opcode table (30_encoding.md R37 to R52). The ModRM bit positions are the spec's
general knowledge (R40; log entry 7). -/
def Obligations.DecodeInvertsEncode : Prop :=
  ∀ (i : Instr) (rest : List Byte), i.wf = true → decode (encode i ++ rest) = .ok i

/-- Encode after decode: the other direction of the round trip (30_encoding.md R37 to R52; log entry 7). -/
def Obligations.DecodedBytesAreItsEncoding : Prop :=
  ∀ (bs : List Byte) (i : Instr), decode bs = .ok i → i.wf = true ∧ bs.take i.length = encode i

/-- The spec's own byte examples (95_test_vectors.md), by the ModRM layout of 30_encoding.md R40, which the spec takes from general
knowledge (log entry 7). -/
def Obligations.SpecEncodingsDecode : Prop :=
  decode [0xB8#8, 0x78#8, 0x56#8, 0x34#8, 0x12#8] = .ok (.movR32Imm32 0#3 0x12345678#32) ∧
  decode [0x89#8, 0xE5#8] = .ok (.movRm32R32 ⟨3#2, 4#3, 5#3, none, .absent⟩) ∧
  decode [0x8B#8, 0x45#8, 0xFC#8] = .ok (.movR32Rm32 ⟨1#2, 0#3, 5#3, none, .disp8 0xFC#8⟩) ∧
  decode [0xC7#8, 0x45#8, 0xFC#8, 0x0A#8, 0x00#8, 0x00#8, 0x00#8] =
    .ok (.movRm32Imm32 ⟨1#2, 0#3, 5#3, none, .disp8 0xFC#8⟩ 0x0000000A#32) ∧
  decode [0x53#8] = .ok (.pushR32 3#3) ∧
  decode [0x6A#8, 0x80#8] = .ok (.pushImm8 0x80#8) ∧
  decode [0xC9#8] = .ok .leave ∧
  decode [0x01#8, 0xC8#8] = .ok (.addRm32R32 ⟨3#2, 1#3, 0#3, none, .absent⟩) ∧
  decode [0x83#8, 0xEC#8, 0x08#8] = .ok (.subRm32Imm8 ⟨3#2, 5#3, 4#3, none, .absent⟩ 0x08#8) ∧
  decode [0xFF#8, 0x45#8, 0xFC#8] = .ok (.incRm32 ⟨1#2, 0#3, 5#3, none, .disp8 0xFC#8⟩) ∧
  decode [0xE8#8, 0x05#8, 0x00#8, 0x00#8, 0x00#8] = .ok (.callRel32 0x00000005#32) ∧
  decode [0xEB#8, 0x01#8] = .ok (.jmpRel8 0x01#8) ∧
  decode [0x83#8, 0x3C#8, 0x24#8, 0x00#8] = .ok (.group83Ext7 ⟨0#2, 7#3, 4#3, some 0x24#8, .absent⟩) ∧
  decode [0xFF#8, 0xC8#8] = .ok (.groupFFExt1 ⟨3#2, 1#3, 0#3, none, .absent⟩) ∧
  decode [0x0F#8] = .ok (.noHandler 0x0F#8)

/-- The ModRM length table of 30_encoding.md R44, row by mode and column by rm. -/
def Obligations.ModRMLengthByModeAndRm : Prop :=
  ∀ (bs : List Byte) (k : Nat) (d : Descriptor), decodeModRM (listSource bs) k = .ok d →
    (([[1, 1, 1, 1, 2, 5, 1, 1],
       [2, 2, 2, 2, 3, 2, 2, 2],
       [5, 5, 5, 5, 6, 5, 5, 5],
       [1, 1, 1, 1, 1, 1, 1, 1]] : List (List Nat))[d.mode.toNat]?.bind (fun row => row[d.rm.toNat]?))
      = some d.length

/-- 30_encoding.md R41 (SIB), R42 (displacement) and R43 (their order: the spec's general knowledge, log entry 21). -/
def Obligations.SibAndDisplacementPresence : Prop :=
  ∀ (bs : List Byte) (k : Nat) (d : Descriptor), decodeModRM (listSource bs) k = .ok d →
    (d.sib.isSome = true ↔ d.mode ≠ 3#2 ∧ d.rm = 4#3) ∧
    (∀ b, d.sib = some b → bs[k + 1]? = some b) ∧
    ((∃ w, d.disp = .disp32 w) ↔ d.mode = 2#2 ∨ (d.mode = 0#2 ∧ d.rm = 5#3)) ∧
    ((∃ b, d.disp = .disp8 b) ↔ d.mode = 1#2) ∧
    (d.disp = .absent ↔ d.mode = 3#2 ∨ (d.mode = 0#2 ∧ d.rm ≠ 5#3)) ∧
    (∀ b, d.disp = .disp8 b → bs[k + d.length - 1]? = some b) ∧
    (∀ w, d.disp = .disp32 w → ∃ b0 b1 b2 b3, bs[k + d.length - 4]? = some b0 ∧ bs[k + d.length - 3]? = some b1 ∧
      bs[k + d.length - 2]? = some b2 ∧ bs[k + d.length - 1]? = some b3 ∧ w = b3 ++ b2 ++ b1 ++ b0)

/-- The primary opcode map of 30_encoding.md R47, with the register of 50+r, 58+r and B8+r as `opcode - base`; that no other
byte has a handler is the spec's decision D7 (log entry 12). -/
def Obligations.HandledOpcodesAreThe37 : Prop :=
  handledOpcodes = ([0x01#8, 0x50#8, 0x51#8, 0x52#8, 0x53#8, 0x54#8, 0x55#8, 0x56#8, 0x57#8, 0x58#8, 0x59#8, 0x5A#8,
    0x5B#8, 0x5C#8, 0x5D#8, 0x5E#8, 0x5F#8, 0x68#8, 0x6A#8, 0x83#8, 0x89#8, 0x8B#8, 0xB8#8, 0xB9#8, 0xBA#8, 0xBB#8,
    0xBC#8, 0xBD#8, 0xBE#8, 0xBF#8, 0xC3#8, 0xC7#8, 0xC9#8, 0xE8#8, 0xE9#8, 0xEB#8, 0xFF#8] : List Byte) ∧
  handledOpcodes.length = 37 ∧ handledOpcodes.Nodup ∧
  (∀ (op : Byte) (rest : List Byte), decode (op :: rest) = .ok (.noHandler op) ↔ op ∉ handledOpcodes) ∧
  (∀ (op : Byte), handlerOf op =
    if op = 0x01#8 then some .add01
    else if 0x50#8 ≤ op ∧ op ≤ 0x57#8 then some (.push50 ((op - 0x50#8).setWidth 3))
    else if 0x58#8 ≤ op ∧ op ≤ 0x5F#8 then some (.pop58 ((op - 0x58#8).setWidth 3))
    else if op = 0x68#8 then some .push68
    else if op = 0x6A#8 then some .push6A
    else if op = 0x83#8 then some .group83
    else if op = 0x89#8 then some .mov89
    else if op = 0x8B#8 then some .mov8B
    else if 0xB8#8 ≤ op ∧ op ≤ 0xBF#8 then some (.movB8 ((op - 0xB8#8).setWidth 3))
    else if op = 0xC3#8 then some .retC3
    else if op = 0xC7#8 then some .movC7
    else if op = 0xC9#8 then some .leaveC9
    else if op = 0xE8#8 then some .callE8
    else if op = 0xE9#8 then some .jmpE9
    else if op = 0xEB#8 then some .jmpEB
    else if op = 0xFF#8 then some .groupFF
    else none)

/-- The signed interpretation and the promotions of 00_scope.md R8. -/
def Obligations.PromotionsToThirtyTwoBits : Prop :=
  (∀ x : Byte, (x.toNat < 128 → s8 x = (x.toNat : Int)) ∧ (128 ≤ x.toNat → s8 x = (x.toNat : Int) - 256)) ∧
  (∀ x : Byte, (sext32 x).toInt = s8 x ∧ sext32 x = x.signExtend 32 ∧ zext32 x = x.zeroExtend 32) ∧
  (∀ v : Word, (v.toNat < 2 ^ 31 → s32 v = (v.toNat : Int)) ∧ (2 ^ 31 ≤ v.toNat → s32 v = (v.toNat : Int) - 2 ^ 32))

/-! ## Registers and memory (10_state.md, 20_memory.md) -/

/-- The enumeration of 10_state.md R12. -/
def Obligations.RegisterIndexMapping : Prop :=
  (∀ x : Regs,
    readReg x 0 = .ok x.eax ∧ readReg x 1 = .ok x.ecx ∧ readReg x 2 = .ok x.edx ∧ readReg x 3 = .ok x.ebx ∧
    readReg x 4 = .ok x.esp ∧ readReg x 5 = .ok x.ebp ∧ readReg x 6 = .ok x.esi ∧ readReg x 7 = .ok x.edi) ∧
  (∀ (x : Regs) (i : Nat), (∃ v, readReg x i = .ok v) ↔ i < 8) ∧
  (∀ r : Field3, Reg.ofIndex r.toNat = some (Reg.ofField r)) ∧
  [Reg.ofField 0#3, Reg.ofField 1#3, Reg.ofField 2#3, Reg.ofField 3#3, Reg.ofField 4#3, Reg.ofField 5#3,
    Reg.ofField 6#3, Reg.ofField 7#3] = [.EAX, .ECX, .EDX, .EBX, .ESP, .EBP, .ESI, .EDI]

/-- The register accessors of 10_state.md R13, for every index. -/
def Obligations.RegisterAccessors : Prop :=
  ∀ (x : Regs) (i : Nat) (v : Word),
    (i < 8 → ∃ x', writeReg x i v = .ok x' ∧ readReg x' i = .ok v ∧ ∀ j, j ≠ i → readReg x' j = readReg x j) ∧
    (8 ≤ i → readReg x i = .error (.invalidRegisterIndex i) ∧ writeReg x i v = .error (.invalidRegisterIndex i))

/-- The byte accessors and the bound of 20_memory.md R24: the hard fault and the addresses without wrap are the spec's decisions
D4 and D16 (log entry 10). -/
def Obligations.ByteAccessAndBounds : Prop :=
  ∀ (m : Memory) (a : Nat) (v : Byte),
    (a < m.size → ∃ m', memWriteU8 m a v = .ok m' ∧ m'.size = m.size ∧ memReadU8 m' a = .ok v ∧
      ∀ b, b ≠ a → memReadU8 m' b = memReadU8 m b) ∧
    (m.size ≤ a → memReadU8 m a = .error (.outOfBounds a) ∧ memWriteU8 m a v = .error (.outOfBounds a)) ∧
    (∀ w : Word, w.toNat ≤ a → a < w.toNat + 4 → m.size ≤ a → ∃ b, w.toNat ≤ b ∧ b ≤ a ∧ m.size ≤ b ∧
      memReadU32 m w = .error (.outOfBounds b))

/-- The dword read of 20_memory.md R25. -/
def Obligations.DwordReadLittleEndian : Prop :=
  ∀ (m : Memory) (a : Word),
    (∀ b0 b1 b2 b3 : Byte, memReadU8 m a.toNat = .ok b0 → memReadU8 m (a.toNat + 1) = .ok b1 →
      memReadU8 m (a.toNat + 2) = .ok b2 → memReadU8 m (a.toNat + 3) = .ok b3 →
      memReadU32 m a = .ok (b3 ++ b2 ++ b1 ++ b0)) ∧
    (∀ i, i < 4 → m.size ≤ a.toNat + i → (∀ j, j < i → a.toNat + j < m.size) →
      memReadU32 m a = .error (.outOfBounds (a.toNat + i)))

/-- The dword write and the round trip of 20_memory.md R26. -/
def Obligations.DwordWriteReadBack : Prop :=
  ∀ (m : Memory) (a v : Word),
    (a.toNat + 3 < m.size → ∃ m', memWriteU32 m a v = .ok m' ∧ memReadU32 m' a = .ok v ∧ m'.size = m.size ∧
      (∀ i, i < 4 → memReadU8 m' (a.toNat + i) = .ok (v.extractLsb' (8 * i) 8)) ∧
      (∀ b, (b < a.toNat ∨ a.toNat + 4 ≤ b) → memReadU8 m' b = memReadU8 m b)) ∧
    (∀ i, i < 4 → m.size ≤ a.toNat + i → (∀ j, j < i → a.toNat + j < m.size) →
      memWriteU32 m a v = .error (.outOfBounds (a.toNat + i)))

/-- The model's own representation of the byte buffer of 20_memory.md R22 (log entry 16). -/
def Obligations.MemoryCanonicalForm : Prop :=
  (∀ (m m' : Memory) (a : Nat) (v : Byte), m.wf → memWriteU8 m a v = .ok m' → m'.wf) ∧
  (∀ (m m' : Memory) (a v : Word), m.wf → memWriteU32 m a v = .ok m' → m'.wf) ∧
  (∀ m m' : Memory, m.wf → m'.wf → m.size = m'.size → MemSame m m' → m = m')

/-! ## Operands and the stack (40_addressing_operands.md, 42_stack.md) -/

/-- EffectiveAddress of 40_addressing_operands.md R54; the wrap is the spec's decision D5 (log entry 9), the order of the tests
D12 (log entry 11), the fault of mode 3 D18 (log entry 23). -/
def Obligations.EffectiveAddressForms : Prop :=
  ∀ (x : Regs) (d : Descriptor),
    (d.mode = 3#2 → effectiveAddress x d = .error .invalidAddressingMode) ∧
    (∀ b, d.mode ≠ 3#2 → d.rm = 4#3 → d.sib = some b → effectiveAddress x d = .error (.unsupportedSIB b)) ∧
    (d.mode = 0#2 → d.rm ≠ 4#3 → d.rm ≠ 5#3 → effectiveAddress x d = .ok (x.get (Reg.ofField d.rm))) ∧
    (∀ w, d.mode = 0#2 → d.rm = 5#3 → d.disp = .disp32 w → effectiveAddress x d = .ok w) ∧
    (∀ b, d.mode = 1#2 → d.rm ≠ 4#3 → d.disp = .disp8 b →
      effectiveAddress x d = .ok (x.get (Reg.ofField d.rm) + b.signExtend 32)) ∧
    (∀ w, d.mode = 2#2 → d.rm ≠ 4#3 → d.disp = .disp32 w →
      effectiveAddress x d = .ok (x.get (Reg.ofField d.rm) + w))

/-- The stack discipline of 42_stack.md R65. -/
def Obligations.PushThenPop : Prop :=
  (∀ (s : State) (v : Word), (s.getReg .ESP - 4#32).toNat + 3 < s.mem.size →
    ∃ m, StoredAt (s.getReg .ESP - 4#32) v s.mem m ∧
      push32 s v = .ok { s with regs := s.regs.set .ESP (s.getReg .ESP - 4#32), mem := m } ∧
      pop32 { s with regs := s.regs.set .ESP (s.getReg .ESP - 4#32), mem := m } = .ok (v, { s with mem := m })) ∧
  (∀ (s : State) (v : Word), memReadU32 s.mem (s.getReg .ESP) = .ok v →
    pop32 s = .ok (v, { s with regs := s.regs.set .ESP (s.getReg .ESP + 4#32) })) ∧
  (∀ s : State, s.mem.size ≤ (s.getReg .ESP).toNat + 3 →
    pop32 s = .error (.outOfBounds (max (s.getReg .ESP).toNat s.mem.size)))

/-! ## What each instruction does (41_data_transfer.md to 44_control_transfer.md) -/

/-- 41_data_transfer.md R60. -/
def Obligations.MovR32Imm32Effect : Prop :=
  ∀ (r : Field3) (imm : Word) (s : State),
    FetchedAs (.movR32Imm32 r imm) ((0xB8#8 + r.zeroExtend 8) :: bytes32 imm) ∧
    exec (.movR32Imm32 r imm) s =
      .next { s with regs := s.regs.set (Reg.ofField r) imm, eip := s.eip + 5#32 }

/-- 41_data_transfer.md R61: every form (register, memory in bounds, memory out of bounds, SIB). The ModRM byte is laid out by the
spec's general knowledge (R40; log entry 7). -/
def Obligations.MovRm32R32Effect : Prop :=
  ∀ (d : Descriptor) (s : State),
    (d.wf = true → FetchedAs (.movRm32R32 d) (0x89#8 :: modrmBytes d)) ∧
    (d.mode = 3#2 → exec (.movRm32R32 d) s =
      .next { s with
        regs := s.regs.set (Reg.ofField d.rm) (s.regs.get (Reg.ofField d.regOrOpcode))
        eip := s.eip + BitVec.ofNat 32 (1 + d.length) }) ∧
    (∀ a, effectiveAddress s.regs d = .ok a → a.toNat + 3 < s.mem.size →
      ∃ m, StoredAt a (s.regs.get (Reg.ofField d.regOrOpcode)) s.mem m ∧
        exec (.movRm32R32 d) s = .next { s with mem := m, eip := s.eip + BitVec.ofNat 32 (1 + d.length) }) ∧
    (∀ a, effectiveAddress s.regs d = .ok a → s.mem.size ≤ a.toNat + 3 →
      exec (.movRm32R32 d) s = .fault (.faulted (.outOfBounds (max a.toNat s.mem.size)) s.trace)) ∧
    (∀ b, d.mode ≠ 3#2 → d.rm = 4#3 → d.sib = some b →
      exec (.movRm32R32 d) s = .fault (.faulted (.unsupportedSIB b) s.trace))

/-- 41_data_transfer.md R62: every form. The ModRM byte is laid out by the spec's general knowledge (R40; log entry 7). -/
def Obligations.MovR32Rm32Effect : Prop :=
  ∀ (d : Descriptor) (s : State),
    (d.wf = true → FetchedAs (.movR32Rm32 d) (0x8B#8 :: modrmBytes d)) ∧
    (d.mode = 3#2 → exec (.movR32Rm32 d) s =
      .next { s with
        regs := s.regs.set (Reg.ofField d.regOrOpcode) (s.regs.get (Reg.ofField d.rm))
        eip := s.eip + BitVec.ofNat 32 (1 + d.length) }) ∧
    (∀ a v, effectiveAddress s.regs d = .ok a → memReadU32 s.mem a = .ok v → exec (.movR32Rm32 d) s =
      .next { s with
        regs := s.regs.set (Reg.ofField d.regOrOpcode) v
        eip := s.eip + BitVec.ofNat 32 (1 + d.length) }) ∧
    (∀ a, effectiveAddress s.regs d = .ok a → s.mem.size ≤ a.toNat + 3 →
      exec (.movR32Rm32 d) s = .fault (.faulted (.outOfBounds (max a.toNat s.mem.size)) s.trace)) ∧
    (∀ b, d.mode ≠ 3#2 → d.rm = 4#3 → d.sib = some b →
      exec (.movR32Rm32 d) s = .fault (.faulted (.unsupportedSIB b) s.trace))

/-- 41_data_transfer.md R63: every form; the reg field is ignored (30_encoding.md R50, the spec's decision D8, log entry 13),
and the ModRM byte is laid out by the spec's general knowledge (R40; log entry 7). -/
def Obligations.MovRm32Imm32Effect : Prop :=
  ∀ (d : Descriptor) (imm : Word) (s : State),
    (d.wf = true → FetchedAs (.movRm32Imm32 d imm) (0xC7#8 :: (modrmBytes d ++ bytes32 imm))) ∧
    (d.mode = 3#2 → exec (.movRm32Imm32 d imm) s =
      .next { s with
        regs := s.regs.set (Reg.ofField d.rm) (imm)
        eip := s.eip + BitVec.ofNat 32 (1 + d.length + 4) }) ∧
    (∀ a, effectiveAddress s.regs d = .ok a → a.toNat + 3 < s.mem.size →
      ∃ m, StoredAt a (imm) s.mem m ∧
        exec (.movRm32Imm32 d imm) s = .next { s with mem := m, eip := s.eip + BitVec.ofNat 32 (1 + d.length + 4) }) ∧
    (∀ a, effectiveAddress s.regs d = .ok a → s.mem.size ≤ a.toNat + 3 →
      exec (.movRm32Imm32 d imm) s = .fault (.faulted (.outOfBounds (max a.toNat s.mem.size)) s.trace)) ∧
    (∀ b, d.mode ≠ 3#2 → d.rm = 4#3 → d.sib = some b →
      exec (.movRm32Imm32 d imm) s = .fault (.faulted (.unsupportedSIB b) s.trace)) ∧
    (∀ reg : Field3, exec (.movRm32Imm32 { d with regOrOpcode := reg } imm) s = exec (.movRm32Imm32 d imm) s)

/-- 42_stack.md R66, PUSH ESP among the forms. That PUSH ESP stores the old ESP is the spec's own inference: R64 marks it as
derived from the signature of `push32`, and 91_not_in_source.md says that the source does not state it (log entry 25). -/
def Obligations.PushR32Effect : Prop :=
  ∀ (r : Field3) (s : State),
    FetchedAs (.pushR32 r) [0x50#8 + r.zeroExtend 8] ∧
    ((s.getReg .ESP - 4#32).toNat + 3 < s.mem.size →
      ∃ m, StoredAt (s.getReg .ESP - 4#32) (s.regs.get (Reg.ofField r)) s.mem m ∧
        exec (.pushR32 r) s =
          .next { s with regs := s.regs.set .ESP (s.getReg .ESP - 4#32), mem := m, eip := s.eip + 1#32 }) ∧
    (s.mem.size ≤ (s.getReg .ESP - 4#32).toNat + 3 →
      exec (.pushR32 r) s =
        .fault (.faulted (.outOfBounds (max (s.getReg .ESP - 4#32).toNat s.mem.size)) s.trace))

/-- 42_stack.md R67; POP ESP by the spec's decision D12 (log entry 19). -/
def Obligations.PopR32Effect : Prop :=
  ∀ (r : Field3) (s : State),
    FetchedAs (.popR32 r) [0x58#8 + r.zeroExtend 8] ∧
    (∀ v, memReadU32 s.mem (s.getReg .ESP) = .ok v → exec (.popR32 r) s =
      .next { s with
        regs := (s.regs.set .ESP (s.getReg .ESP + 4#32)).set (Reg.ofField r) v
        eip := s.eip + 1#32 }) ∧
    (s.mem.size ≤ (s.getReg .ESP).toNat + 3 → exec (.popR32 r) s =
      .fault (.faulted (.outOfBounds (max (s.getReg .ESP).toNat s.mem.size)) s.trace))

/-- 42_stack.md R68. -/
def Obligations.PushImm32Effect : Prop :=
  ∀ (imm : Word) (s : State),
    FetchedAs (.pushImm32 imm) (0x68#8 :: bytes32 imm) ∧
    ((s.getReg .ESP - 4#32).toNat + 3 < s.mem.size →
      ∃ m, StoredAt (s.getReg .ESP - 4#32) (imm) s.mem m ∧
        exec (.pushImm32 imm) s =
          .next { s with regs := s.regs.set .ESP (s.getReg .ESP - 4#32), mem := m, eip := s.eip + 5#32 }) ∧
    (s.mem.size ≤ (s.getReg .ESP - 4#32).toNat + 3 →
      exec (.pushImm32 imm) s =
        .fault (.faulted (.outOfBounds (max (s.getReg .ESP - 4#32).toNat s.mem.size)) s.trace))

/-- 42_stack.md R69, for both parameter values; the value `false` is the spec's decision D6 (log entry 8). -/
def Obligations.PushImm8Effect : Prop :=
  ∀ (signExtend : Bool) (imm : Byte) (s : State),
    FetchedAs (.pushImm8 imm) [0x6A#8, imm] ∧
    ((s.getReg .ESP - 4#32).toNat + 3 < s.mem.size →
      ∃ m, StoredAt (s.getReg .ESP - 4#32) (if signExtend then imm.signExtend 32 else imm.zeroExtend 32) s.mem m ∧
        pushImm8With signExtend imm s =
          .next { s with regs := s.regs.set .ESP (s.getReg .ESP - 4#32), mem := m, eip := s.eip + 2#32 }) ∧
    (s.mem.size ≤ (s.getReg .ESP - 4#32).toNat + 3 →
      pushImm8With signExtend imm s =
        .fault (.faulted (.outOfBounds (max (s.getReg .ESP - 4#32).toNat s.mem.size)) s.trace)) ∧
    exec (.pushImm8 imm) s = pushImm8With false imm s

/-- 42_stack.md R70, in the order of 90_conflicts.md C1; where EBP = ESP, LEAVE is POP EBP. -/
def Obligations.LeaveEffect : Prop :=
  FetchedAs .leave [0xC9#8] ∧
  ∀ s : State,
    (∀ v, memReadU32 s.mem (s.getReg .EBP) = .ok v → exec .leave s =
      .next { s with
        regs := (s.regs.set .ESP (s.getReg .EBP + 4#32)).set .EBP v
        eip := s.eip + 1#32 }) ∧
    (s.mem.size ≤ (s.getReg .EBP).toNat + 3 → exec .leave s =
      .fault (.faulted (.outOfBounds (max (s.getReg .EBP).toNat s.mem.size)) s.trace)) ∧
    (s.getReg .EBP = s.getReg .ESP → exec .leave s = exec (.popR32 5#3) s)

/-- 43_arithmetic.md R72: every form; the wrap is the spec's decision D5 (log entry 9), the layout of the ModRM byte its general
knowledge (R40; log entry 7). -/
def Obligations.AddRm32R32Effect : Prop :=
  ∀ (d : Descriptor) (s : State),
    (d.wf = true → FetchedAs (.addRm32R32 d) (0x01#8 :: modrmBytes d)) ∧
    (d.mode = 3#2 → exec (.addRm32R32 d) s =
      .next { s with
        regs := s.regs.set (Reg.ofField d.rm) (s.regs.get (Reg.ofField d.rm) + s.regs.get (Reg.ofField d.regOrOpcode))
        eip := s.eip + BitVec.ofNat 32 (1 + d.length) }) ∧
    (∀ a old, effectiveAddress s.regs d = .ok a → memReadU32 s.mem a = .ok old →
      ∃ m, StoredAt a (old + s.regs.get (Reg.ofField d.regOrOpcode)) s.mem m ∧
        exec (.addRm32R32 d) s = .next { s with mem := m, eip := s.eip + BitVec.ofNat 32 (1 + d.length) }) ∧
    (∀ a, effectiveAddress s.regs d = .ok a → s.mem.size ≤ a.toNat + 3 →
      exec (.addRm32R32 d) s = .fault (.faulted (.outOfBounds (max a.toNat s.mem.size)) s.trace)) ∧
    (∀ b, d.mode ≠ 3#2 → d.rm = 4#3 → d.sib = some b →
      exec (.addRm32R32 d) s = .fault (.faulted (.unsupportedSIB b) s.trace))

/-- 43_arithmetic.md R74: every form; the wrap is the spec's decision D5 (log entry 9), the order of the operand read and the
immediate's fetch D12 (log entry 11), the layout of the ModRM byte its general knowledge (R40; log entry 7). -/
def Obligations.AddRm32Imm8Effect : Prop :=
  ∀ (d : Descriptor) (imm : Byte) (s : State),
    (d.wf = true → d.regOrOpcode = 0#3 → FetchedAs (.addRm32Imm8 d imm) (0x83#8 :: (modrmBytes d ++ [imm]))) ∧
    (d.mode = 3#2 → exec (.addRm32Imm8 d imm) s =
      .next { s with
        regs := s.regs.set (Reg.ofField d.rm) (s.regs.get (Reg.ofField d.rm) + imm.signExtend 32)
        eip := s.eip + BitVec.ofNat 32 (1 + d.length + 1) }) ∧
    (∀ a old, effectiveAddress s.regs d = .ok a → memReadU32 s.mem a = .ok old →
      ∃ m, StoredAt a (old + imm.signExtend 32) s.mem m ∧
        exec (.addRm32Imm8 d imm) s = .next { s with mem := m, eip := s.eip + BitVec.ofNat 32 (1 + d.length + 1) }) ∧
    (∀ a, effectiveAddress s.regs d = .ok a → s.mem.size ≤ a.toNat + 3 →
      exec (.addRm32Imm8 d imm) s = .fault (.faulted (.outOfBounds (max a.toNat s.mem.size)) s.trace)) ∧
    (∀ b, d.mode ≠ 3#2 → d.rm = 4#3 → d.sib = some b →
      exec (.addRm32Imm8 d imm) s = .fault (.faulted (.unsupportedSIB b) s.trace)) ∧
    (∀ r, s.status = .running → memReadU8 s.mem s.eip.toNat = .ok 0x83#8 → decodeModRM (fetchSource s) 1 = .ok d →
      d.regOrOpcode = 0#3 → readOperand32 s d = .error r →
      step s = .fault (.faulted r (s.trace ++ [{ eip := s.eip, opcode := 0x83#8 }])))

/-- 43_arithmetic.md R75: every form; the wrap is the spec's decision D5 (log entry 9), the order of the operand read and the
immediate's fetch D12 (log entry 11), the layout of the ModRM byte its general knowledge (R40; log entry 7). -/
def Obligations.SubRm32Imm8Effect : Prop :=
  ∀ (d : Descriptor) (imm : Byte) (s : State),
    (d.wf = true → d.regOrOpcode = 5#3 → FetchedAs (.subRm32Imm8 d imm) (0x83#8 :: (modrmBytes d ++ [imm]))) ∧
    (d.mode = 3#2 → exec (.subRm32Imm8 d imm) s =
      .next { s with
        regs := s.regs.set (Reg.ofField d.rm) (s.regs.get (Reg.ofField d.rm) - imm.signExtend 32)
        eip := s.eip + BitVec.ofNat 32 (1 + d.length + 1) }) ∧
    (∀ a old, effectiveAddress s.regs d = .ok a → memReadU32 s.mem a = .ok old →
      ∃ m, StoredAt a (old - imm.signExtend 32) s.mem m ∧
        exec (.subRm32Imm8 d imm) s = .next { s with mem := m, eip := s.eip + BitVec.ofNat 32 (1 + d.length + 1) }) ∧
    (∀ a, effectiveAddress s.regs d = .ok a → s.mem.size ≤ a.toNat + 3 →
      exec (.subRm32Imm8 d imm) s = .fault (.faulted (.outOfBounds (max a.toNat s.mem.size)) s.trace)) ∧
    (∀ b, d.mode ≠ 3#2 → d.rm = 4#3 → d.sib = some b →
      exec (.subRm32Imm8 d imm) s = .fault (.faulted (.unsupportedSIB b) s.trace)) ∧
    (∀ r, s.status = .running → memReadU8 s.mem s.eip.toNat = .ok 0x83#8 → decodeModRM (fetchSource s) 1 = .ok d →
      d.regOrOpcode = 5#3 → readOperand32 s d = .error r →
      step s = .fault (.faulted r (s.trace ++ [{ eip := s.eip, opcode := 0x83#8 }])))

/-- 43_arithmetic.md R77: every form; the wrap is the spec's decision D5 (log entry 9), the layout of the ModRM byte its general
knowledge (R40; log entry 7). -/
def Obligations.IncRm32Effect : Prop :=
  ∀ (d : Descriptor) (s : State),
    (d.wf = true → d.regOrOpcode = 0#3 → FetchedAs (.incRm32 d) (0xFF#8 :: modrmBytes d)) ∧
    (d.mode = 3#2 → exec (.incRm32 d) s =
      .next { s with
        regs := s.regs.set (Reg.ofField d.rm) (s.regs.get (Reg.ofField d.rm) + 1#32)
        eip := s.eip + BitVec.ofNat 32 (1 + d.length) }) ∧
    (∀ a old, effectiveAddress s.regs d = .ok a → memReadU32 s.mem a = .ok old →
      ∃ m, StoredAt a (old + 1#32) s.mem m ∧
        exec (.incRm32 d) s = .next { s with mem := m, eip := s.eip + BitVec.ofNat 32 (1 + d.length) }) ∧
    (∀ a, effectiveAddress s.regs d = .ok a → s.mem.size ≤ a.toNat + 3 →
      exec (.incRm32 d) s = .fault (.faulted (.outOfBounds (max a.toNat s.mem.size)) s.trace)) ∧
    (∀ b, d.mode ≠ 3#2 → d.rm = 4#3 → d.sib = some b →
      exec (.incRm32 d) s = .fault (.faulted (.unsupportedSIB b) s.trace))

/-- 44_control_transfer.md R79. -/
def Obligations.CallRel32Effect : Prop :=
  ∀ (rel : Word) (s : State),
    FetchedAs (.callRel32 rel) (0xE8#8 :: bytes32 rel) ∧
    ((s.getReg .ESP - 4#32).toNat + 3 < s.mem.size →
      ∃ m, StoredAt (s.getReg .ESP - 4#32) (s.eip + 5#32) s.mem m ∧
        exec (.callRel32 rel) s =
          .next { s with regs := s.regs.set .ESP (s.getReg .ESP - 4#32), mem := m, eip := s.eip + 5#32 + rel }) ∧
    (s.mem.size ≤ (s.getReg .ESP - 4#32).toNat + 3 →
      exec (.callRel32 rel) s =
        .fault (.faulted (.outOfBounds (max (s.getReg .ESP - 4#32).toNat s.mem.size)) s.trace))

/-- 44_control_transfer.md R80. -/
def Obligations.RetEffect : Prop :=
  FetchedAs .ret [0xC3#8] ∧
  ∀ s : State,
    (∀ v, memReadU32 s.mem (s.getReg .ESP) = .ok v → exec .ret s =
      .next { s with regs := s.regs.set .ESP (s.getReg .ESP + 4#32), eip := v }) ∧
    (s.mem.size ≤ (s.getReg .ESP).toNat + 3 → exec .ret s =
      .fault (.faulted (.outOfBounds (max (s.getReg .ESP).toNat s.mem.size)) s.trace))

/-- 44_control_transfer.md R81. -/
def Obligations.JmpRel8Effect : Prop :=
  ∀ (rel : Byte) (s : State),
    FetchedAs (.jmpRel8 rel) [0xEB#8, rel] ∧
    exec (.jmpRel8 rel) s = .next { s with eip := s.eip + 2#32 + rel.signExtend 32 }

/-- 44_control_transfer.md R82. -/
def Obligations.JmpRel32Effect : Prop :=
  ∀ (rel : Word) (s : State),
    FetchedAs (.jmpRel32 rel) (0xE9#8 :: bytes32 rel) ∧
    exec (.jmpRel32 rel) s = .next { s with eip := s.eip + 5#32 + rel }

/-- 45_execution_loop.md R85. -/
def Obligations.UnknownOpcodeHalts : Prop :=
  (∀ (op : Byte) (s : State), exec (.noHandler op) s = .next { s with status := .halted (.unknownOpcode op) }) ∧
  (∀ (op : Byte) (s : State), s.status = .running → op ∉ handledOpcodes → memReadU8 s.mem s.eip.toNat = .ok op →
    ∃ t : State, step s = .next t ∧ t = { s with status := .halted (.unknownOpcode op), trace := t.trace } ∧
      (∃ d, dump t = some d ∧ d.eip = s.eip) ∧ exitCode t.status = some 0)

/-- 43_arithmetic.md R73; the order of the checks is the spec's inference, with its decision D12 (log entry 11). -/
def Obligations.Group83UnimplementedFaults : Prop :=
  (∀ (d : Descriptor) (s : State),
    exec (.group83Ext1 d) s = .fault (.faulted (.unimplementedGroupExtension 0x83#8 1#3) s.trace) ∧
    exec (.group83Ext2 d) s = .fault (.faulted (.unimplementedGroupExtension 0x83#8 2#3) s.trace) ∧
    exec (.group83Ext3 d) s = .fault (.faulted (.unimplementedGroupExtension 0x83#8 3#3) s.trace) ∧
    exec (.group83Ext4 d) s = .fault (.faulted (.unimplementedGroupExtension 0x83#8 4#3) s.trace) ∧
    exec (.group83Ext6 d) s = .fault (.faulted (.unimplementedGroupExtension 0x83#8 6#3) s.trace) ∧
    exec (.group83Ext7 d) s = .fault (.faulted (.unimplementedGroupExtension 0x83#8 7#3) s.trace)) ∧
  (∀ (d : Descriptor) (s : State), s.status = .running → memReadU8 s.mem s.eip.toNat = .ok 0x83#8 →
    decodeModRM (fetchSource s) 1 = .ok d → d.regOrOpcode ≠ 0#3 → d.regOrOpcode ≠ 5#3 →
    step s = .fault (.faulted (.unimplementedGroupExtension 0x83#8 d.regOrOpcode)
      (s.trace ++ [{ eip := s.eip, opcode := 0x83#8 }]))) ∧
  (∀ (d : Descriptor) (s : State) (v : Word) (imm : Byte), decodeModRM (fetchSource s) 1 = .ok d →
    memReadU8 s.mem s.eip.toNat = .ok 0x83#8 → readOperand32 s d = .ok v → fetchU8 s (1 + d.length) = .ok imm →
    (d.regOrOpcode = 0#3 → fetchInstr s = .ok (.addRm32Imm8 d imm)) ∧
    (d.regOrOpcode = 5#3 → fetchInstr s = .ok (.subRm32Imm8 d imm)))

/-- 43_arithmetic.md R76; the order of the checks is the spec's inference, with its decision D12 (log entry 11). -/
def Obligations.GroupFFUnimplementedFaults : Prop :=
  (∀ (d : Descriptor) (s : State),
    exec (.groupFFExt1 d) s = .fault (.faulted (.unimplementedGroupExtension 0xFF#8 1#3) s.trace) ∧
    exec (.groupFFExt2 d) s = .fault (.faulted (.unimplementedGroupExtension 0xFF#8 2#3) s.trace) ∧
    exec (.groupFFExt3 d) s = .fault (.faulted (.unimplementedGroupExtension 0xFF#8 3#3) s.trace) ∧
    exec (.groupFFExt4 d) s = .fault (.faulted (.unimplementedGroupExtension 0xFF#8 4#3) s.trace) ∧
    exec (.groupFFExt5 d) s = .fault (.faulted (.unimplementedGroupExtension 0xFF#8 5#3) s.trace) ∧
    exec (.groupFFExt6 d) s = .fault (.faulted (.unimplementedGroupExtension 0xFF#8 6#3) s.trace) ∧
    exec (.groupFFExt7 d) s = .fault (.faulted (.unimplementedGroupExtension 0xFF#8 7#3) s.trace)) ∧
  (∀ (d : Descriptor) (s : State), s.status = .running → memReadU8 s.mem s.eip.toNat = .ok 0xFF#8 →
    decodeModRM (fetchSource s) 1 = .ok d → d.regOrOpcode ≠ 0#3 →
    step s = .fault (.faulted (.unimplementedGroupExtension 0xFF#8 d.regOrOpcode)
      (s.trace ++ [{ eip := s.eip, opcode := 0xFF#8 }]))) ∧
  (∀ (d : Descriptor) (s : State), memReadU8 s.mem s.eip.toNat = .ok 0xFF#8 →
    decodeModRM (fetchSource s) 1 = .ok d → d.regOrOpcode = 0#3 → fetchInstr s = .ok (.incRm32 d))

/-! ## Frames: what a completing instruction leaves unchanged -/

/-- The register destinations: B8+r, 8B, and mode 3 of 01, 83 /0, 83 /5, FF /0, 89, C7. -/
def Obligations.RegisterFormsFrame : Prop :=
  ∀ (i : Instr) (dest : Reg) (s t : State),
    ((∃ r imm, i = .movR32Imm32 r imm ∧ dest = Reg.ofField r) ∨
      (∃ d, i = .movR32Rm32 d ∧ dest = Reg.ofField d.regOrOpcode) ∨
      (∃ d, rmDestination i = some d ∧ d.mode = 3#2 ∧ dest = Reg.ofField d.rm)) →
    exec i s = .next t →
      RegsSameExcept [dest] s t ∧ MemSame s.mem t.mem ∧ ControlSame s t

/-- The memory destinations of 01, 83 /0, 83 /5, FF /0, 89, C7; the stored bytes are the four at the effective address. -/
def Obligations.MemoryFormsFrame : Prop :=
  ∀ (i : Instr) (d : Descriptor) (s t : State), rmDestination i = some d → d.mode ≠ 3#2 → exec i s = .next t →
    (∃ a, effectiveAddress s.regs d = .ok a) ∧
    (∀ a, effectiveAddress s.regs d = .ok a → MemSameOutside a s.mem t.mem) ∧
    t.regs = s.regs ∧ ControlSame s t

/-- 42_stack.md R64 and its users; the stored bytes are the four at the lowered ESP. -/
def Obligations.PushFormsFrame : Prop :=
  ∀ (i : Instr) (s t : State),
    ((∃ r, i = .pushR32 r) ∨ (∃ imm, i = .pushImm32 imm) ∨ (∃ imm, i = .pushImm8 imm) ∨ (∃ rel, i = .callRel32 rel)) →
    exec i s = .next t →
      RegsSameExcept [.ESP] s t ∧ MemSameOutside (s.getReg .ESP - 4#32) s.mem t.mem ∧ ControlSame s t

/-- 42_stack.md R65 and its users. -/
def Obligations.PopFormsFrame : Prop :=
  ∀ (i : Instr) (written : List Reg) (s t : State),
    ((∃ r, i = .popR32 r ∧ written = [.ESP, Reg.ofField r]) ∨ (i = .leave ∧ written = [.ESP, .EBP]) ∨
      (i = .ret ∧ written = [.ESP])) →
    exec i s = .next t →
      RegsSameExcept written s t ∧ MemSame s.mem t.mem ∧ ControlSame s t

/-- FLAGS (R17, R71), the fixed size of memory (R22), and the status (R90): over all 31 rows. -/
def Obligations.ExecKeepsControlState : Prop :=
  ∀ (i : Instr) (s t : State), exec i s = .next t →
    t.flags = s.flags ∧ t.trace = s.trace ∧ t.mem.size = s.mem.size ∧
      (t.status = s.status ∨ ∃ op, i = .noHandler op ∧ t.status = .halted (.unknownOpcode op))

/-- The two defensive faults cannot be reached by any instruction (10_state.md R13, 40_addressing_operands.md R54, 60_exceptions.md R91). -/
def Obligations.ExecAnswersNextOrReachableFault : Prop :=
  ∀ (i : Instr) (s : State),
    (∃ t, exec i s = .next t) ∨
    (∃ r, exec i s = .fault (.faulted r s.trace) ∧
      ((∃ op ext, r = .unimplementedGroupExtension op ext) ∨ (∃ b, r = .unsupportedSIB b) ∨ (∃ a, r = .outOfBounds a)))

/-! ## The execution loop (45_execution_loop.md, 60_exceptions.md) -/

/-- 45_execution_loop.md R84 to R87: fetch, trace, handler, checks. PostInstructionChecks says what the checks do. -/
def Obligations.StepRunsDecodedInstruction : Prop :=
  (∀ (s : State) (bs : List Byte) (op : Byte) (i : Instr), s.status = .running →
    s.mem.size ≤ Config.addressSpace → decode (op :: bs) = .ok i →
    HoldsAt s.mem s.eip.toNat ((op :: bs).take i.length) →
    step s = afterHandler (exec i { s with trace := s.trace ++ [{ eip := s.eip, opcode := op }] })) ∧
  (∀ (s : State) (op : Byte) (i : Instr), s.status = .running → memReadU8 s.mem s.eip.toNat = .ok op →
    fetchInstr s = .ok i →
    step s = afterHandler (exec i { s with trace := s.trace ++ [{ eip := s.eip, opcode := op }] })) ∧
  (∀ (s : State) (op : Byte) (r : FaultReason), s.status = .running → memReadU8 s.mem s.eip.toNat = .ok op →
    fetchInstr s = .error r →
    step s = .fault (.faulted r (s.trace ++ [{ eip := s.eip, opcode := op }]))) ∧
  (∀ t : State, afterHandler (.next t) = .next (postChecks t)) ∧
  (∀ f : Fault, afterHandler (.fault f) = .fault f)

/-- 45_execution_loop.md R87; the strict comparison is the spec's decision D9 (log entry 15). -/
def Obligations.PostInstructionChecks : Prop :=
  ∀ (s t : State) (op : Byte) (i : Instr), s.status = .running → memReadU8 s.mem s.eip.toNat = .ok op →
    fetchInstr s = .ok i →
    exec i { s with trace := s.trace ++ [{ eip := s.eip, opcode := op }] } = .next t → t.status = .running →
    (t.eip.toNat = 0 → step s = .next { t with status := .halted .sentinelEIP }) ∧
    (0x00100000 < t.eip.toNat → step s = .next { t with status := .halted .safetyBound }) ∧
    (0 < t.eip.toNat → t.eip.toNat ≤ 0x00100000 → step s = .next t)

/-- 45_execution_loop.md R84, R88; that the model answers a refusal there is its own choice (log entry 2). -/
def Obligations.StepRefusesExactlyWhenTerminal : Prop :=
  ∀ s : State,
    (s.status = .running → ∀ r, step s ≠ .refused r) ∧
    (s.status ≠ .running → step s = .refused (.terminal s.status))

/-- The first condition of 60_exceptions.md R94. -/
def Obligations.OpcodeFetchOutOfBounds : Prop :=
  ∀ s : State, s.status = .running → s.mem.size ≤ s.eip.toNat →
    step s = .fault (.faulted (.outOfBounds s.eip.toNat) s.trace)

/-- The fetch faults of every rule R60 to R82 ("OutOfBounds if any of the bytes lies at or beyond MEM_SIZE"), for all 31 rows;
the layout of the ModRM byte is the spec's general knowledge (R40; log entry 7). -/
def Obligations.InstructionsAreFetchedAsTheirBytes : Prop :=
  ∀ i : Instr, i.wf = true → FetchedAs i (encode i)

/-- The order of 60_exceptions.md R94 (decision D12; log entry 11). -/
def Obligations.OperandFaultBeforeImmediate : Prop :=
  ∀ (s : State) (d : Descriptor), s.status = .running → memReadU8 s.mem s.eip.toNat = .ok 0x83#8 →
    decodeModRM (fetchSource s) 1 = .ok d → (d.regOrOpcode = 0#3 ∨ d.regOrOpcode = 5#3) →
    (∀ r, readOperand32 s d = .error r →
      step s = .fault (.faulted r (s.trace ++ [{ eip := s.eip, opcode := 0x83#8 }]))) ∧
    (∀ v, readOperand32 s d = .ok v → s.mem.size ≤ (s.eip + BitVec.ofNat 32 (1 + d.length)).toNat →
      step s = .fault (.faulted (.outOfBounds (s.eip + BitVec.ofNat 32 (1 + d.length)).toNat)
        (s.trace ++ [{ eip := s.eip, opcode := 0x83#8 }])))

/-- 60_exceptions.md R99; the moment of the event is the spec's decision D14 (log entry 4). -/
def Obligations.TraceGrowsByTheFetchedOpcode : Prop :=
  ∀ s : State, s.status = .running →
    (∀ op, memReadU8 s.mem s.eip.toNat = .ok op →
      traceAfter (step s) = some (s.trace ++ [{ eip := s.eip, opcode := op }])) ∧
    (∀ r, memReadU8 s.mem s.eip.toNat = .error r → traceAfter (step s) = some s.trace)

/-- 10_state.md R17; the reset value is the spec's decision D3 (log entry 6). -/
def Obligations.FlagsAreStorageOnly : Prop :=
  (∀ (s : State) (f : Word), step { s with flags := f } = mapNext (fun t => { t with flags := f }) (step s)) ∧
  (∀ s t : State, step s = .next t → t.flags = s.flags) ∧
  State.reset.flags = 0#32 ∧
  (∀ (s : State) (f : Word), dump { s with flags := f } = dump s)

/-- The defensive faults of 60_exceptions.md R91 "cannot be reached". -/
def Obligations.StepNeverRaisesDefensiveFaults : Prop :=
  ∀ (s : State) (r : FaultReason) (tr : List TraceEvent), step s = .fault (.faulted r tr) →
    (∃ op ext, r = .unimplementedGroupExtension op ext) ∨ (∃ b, r = .unsupportedSIB b) ∨ (∃ a, r = .outOfBounds a)

/-! ## The invariant, reset and the host boundary (70_reset_and_hazards.md, 60_exceptions.md) -/

/-- The invariant `Inv` of Safety.lean, kept by a step from every state that meets it. Its clause that memory is in canonical
form is the model's own representation, its choice and no rule of the spec (log entry 16, DESIGN CHOICE); that memory does
not shrink is 20_memory.md R22. The status fits EIP by 45_execution_loop.md R85 and R87 and 60_exceptions.md R90: that the
bound is strict is the spec's decision D9 (log entry 15), which bytes have a handler D7 (log entry 12), the names of the
halt reasons D13 (log entry 3), and that no next state is FAULTED D11 (log entry 1). -/
def Obligations.StepKeepsInvariant : Prop :=
  ∀ s t : State, Inv s → step s = .next t → Inv t

/-- `Inv` of Safety.lean at the reset of 70_reset_and_hazards.md R102, which gives the status and EIP. That memory is in
canonical form is the model's own representation, its choice and no rule of the spec (log entry 16, DESIGN CHOICE); that
the image is empty, so that memory has LOAD_BASE bytes, is the model's choice too (log entry 5, DESIGN CHOICE). -/
def Obligations.ResetMeetsInvariant : Prop :=
  Inv State.reset

/-- A statement over runs from the reset procedure, for all images (45_execution_loop.md R88); the step lemma behind it is
StepKeepsInvariant, and what that docstring says of `Inv` holds here: the canonical form of memory is the model's own
representation, its choice and no rule of the spec (log entry 16, DESIGN CHOICE), and the strict bound is the spec's
decision D9 (log entry 15). That FLAGS is 0 at reset is the spec's decision D3 (log entry 6); that no step changes it is
10_state.md R17. When a trace event is emitted is D14 (log entry 4); that an image beyond 2^32 has no run is D17 (log entry
22). -/
def Obligations.EveryRunKeepsInvariant : Prop :=
  ∀ (image : List Byte) (s t : State), bootImage image = some s → Reaches s t →
    Inv t ∧ t.mem.size = Config.loadBase.toNat + image.length ∧ t.flags = 0#32 ∧ s.trace <+: t.trace

/-- 10_state.md R15. -/
def Obligations.ResetRegisterValues : Prop :=
  State.reset.getReg .EAX = 0#32 ∧ State.reset.getReg .ECX = 0#32 ∧ State.reset.getReg .EDX = 0#32 ∧
  State.reset.getReg .EBX = 0#32 ∧ State.reset.getReg .ESP = 0x00007C00#32 ∧ State.reset.getReg .EBP = 0#32 ∧
  State.reset.getReg .ESI = 0#32 ∧ State.reset.getReg .EDI = 0#32 ∧
  (∀ i, i < 8 → i ≠ 4 → readReg State.reset.regs i = .ok 0#32) ∧
  readReg State.reset.regs 4 = .ok 0x00007C00#32

/-- 70_reset_and_hazards.md R102; FLAGS by the spec's decision D3 (log entry 6), the image bound by D17 (log entry 22). The
last clause, that the reset with the empty image is `State.reset`, is the model's choice and no rule of the spec (log entry
5, DESIGN CHOICE); the empty trace is the model's field (log entry 4). -/
def Obligations.BootBuildsTheResetState : Prop :=
  (∀ (loadBase initSp : Word) (image : List Byte),
    (∃ s, boot loadBase initSp image = some s) ↔ loadBase.toNat + image.length ≤ 2 ^ 32) ∧
  (∀ (loadBase initSp : Word) (image : List Byte) (s : State), boot loadBase initSp image = some s →
    s.mem.size = loadBase.toNat + image.length ∧
    (∀ a, a < loadBase.toNat → memReadU8 s.mem a = .ok 0#8) ∧
    (∀ k b, image[k]? = some b → memReadU8 s.mem (loadBase.toNat + k) = .ok b) ∧
    (∀ a, loadBase.toNat + image.length ≤ a → memReadU8 s.mem a = .error (.outOfBounds a)) ∧
    (∀ r, r ≠ Reg.ESP → s.getReg r = 0#32) ∧ s.getReg .ESP = initSp ∧
    s.eip = loadBase ∧ s.flags = 0#32 ∧ s.status = .running ∧ s.trace = []) ∧
  boot 0x00007C00#32 0x00007C00#32 [] = some State.reset

/-- 60_exceptions.md R92; the order is the spec's decision D15 (log entry 17). -/
def Obligations.DumpAndExitCodes : Prop :=
  (∀ (s : State) (h : HaltReason), s.status = .halted h →
    dump s = some { registers := [(.EAX, s.getReg .EAX), (.ECX, s.getReg .ECX), (.EDX, s.getReg .EDX),
      (.EBX, s.getReg .EBX), (.ESP, s.getReg .ESP), (.EBP, s.getReg .EBP), (.ESI, s.getReg .ESI),
      (.EDI, s.getReg .EDI)], eip := s.eip } ∧ exitCode s.status = some 0) ∧
  (∀ (s : State) (r : FaultReason), s.status = .faulted r → dump s = none ∧ exitCode s.status = some 1) ∧
  (∀ s : State, s.status = .running → dump s = none ∧ exitCode s.status = none) ∧
  (∀ (s : State) (r : FaultReason) (tr : List TraceEvent), step s = .fault (.faulted r tr) →
    statusAfter (step s) = some (.faulted r))

/-- Instruction-fetch coherence (20_memory.md R35, 70_reset_and_hazards.md R105) for every form that stores (R29): the state
`u` of the fetch is the next state, or any later one in which the four bytes have not been written again. `storeAddress` and
`storedDword` are in Safety.lean. Sums wrap by the spec's decision D5 (log entry 9), and 6A zero-extends by D6 (log entry
8); that 54 stores the old ESP is the spec's inference (log entry 25). -/
def Obligations.StoreSeenByNextFetch : Prop :=
  ∀ (i : Instr) (s t : State), exec i s = .next t →
    (storeAddress i s = none → MemSame s.mem t.mem) ∧
    ∀ a, storeAddress i s = some a → ∃ old v,
      memReadU32 s.mem a = .ok old ∧ storedDword i s old = some v ∧ memReadU32 t.mem a = .ok v ∧
      ∀ (u : State) (k : Nat), (∀ j, j < 4 → memReadU8 u.mem (a.toNat + j) = memReadU8 t.mem (a.toNat + j)) →
        (fetchAddress u k = a → fetchU32 u k = .ok v) ∧
        (∀ j, j < 4 → (fetchAddress u k).toNat = a.toNat + j → fetchU8 u k = .ok (v.extractLsb' (8 * j) 8))
end

