-- ==== Sys2Proof/Laws/State.lean ====
section
/-! SUPPORT. One lemma per field per update of State, each true by rfl, so that no proof unfolds a record update. -/

namespace Sys2Proof.Machine

variable (s : State)

@[simp] theorem setReg_regs (r : Reg) (v : Word) : (s.setReg r v).regs = s.regs.set r v := rfl
@[simp] theorem setReg_eip (r : Reg) (v : Word) : (s.setReg r v).eip = s.eip := rfl
@[simp] theorem setReg_flags (r : Reg) (v : Word) : (s.setReg r v).flags = s.flags := rfl
@[simp] theorem setReg_mem (r : Reg) (v : Word) : (s.setReg r v).mem = s.mem := rfl
@[simp] theorem setReg_status (r : Reg) (v : Word) : (s.setReg r v).status = s.status := rfl
@[simp] theorem setReg_trace (r : Reg) (v : Word) : (s.setReg r v).trace = s.trace := rfl

@[simp] theorem setRegs_regs (x : Regs) : (s.setRegs x).regs = x := rfl
@[simp] theorem setRegs_eip (x : Regs) : (s.setRegs x).eip = s.eip := rfl
@[simp] theorem setRegs_flags (x : Regs) : (s.setRegs x).flags = s.flags := rfl
@[simp] theorem setRegs_mem (x : Regs) : (s.setRegs x).mem = s.mem := rfl
@[simp] theorem setRegs_status (x : Regs) : (s.setRegs x).status = s.status := rfl
@[simp] theorem setRegs_trace (x : Regs) : (s.setRegs x).trace = s.trace := rfl

@[simp] theorem setMem_regs (m : Memory) : (s.setMem m).regs = s.regs := rfl
@[simp] theorem setMem_eip (m : Memory) : (s.setMem m).eip = s.eip := rfl
@[simp] theorem setMem_flags (m : Memory) : (s.setMem m).flags = s.flags := rfl
@[simp] theorem setMem_mem (m : Memory) : (s.setMem m).mem = m := rfl
@[simp] theorem setMem_status (m : Memory) : (s.setMem m).status = s.status := rfl
@[simp] theorem setMem_trace (m : Memory) : (s.setMem m).trace = s.trace := rfl

@[simp] theorem setEip_regs (w : Word) : (s.setEip w).regs = s.regs := rfl
@[simp] theorem setEip_eip (w : Word) : (s.setEip w).eip = w := rfl
@[simp] theorem setEip_flags (w : Word) : (s.setEip w).flags = s.flags := rfl
@[simp] theorem setEip_mem (w : Word) : (s.setEip w).mem = s.mem := rfl
@[simp] theorem setEip_status (w : Word) : (s.setEip w).status = s.status := rfl
@[simp] theorem setEip_trace (w : Word) : (s.setEip w).trace = s.trace := rfl

@[simp] theorem advance_regs (n : Nat) : (s.advance n).regs = s.regs := rfl
@[simp] theorem advance_eip (n : Nat) : (s.advance n).eip = s.eip + BitVec.ofNat 32 n := rfl
@[simp] theorem advance_flags (n : Nat) : (s.advance n).flags = s.flags := rfl
@[simp] theorem advance_mem (n : Nat) : (s.advance n).mem = s.mem := rfl
@[simp] theorem advance_status (n : Nat) : (s.advance n).status = s.status := rfl
@[simp] theorem advance_trace (n : Nat) : (s.advance n).trace = s.trace := rfl

@[simp] theorem halt_regs (h : HaltReason) : (s.halt h).regs = s.regs := rfl
@[simp] theorem halt_eip (h : HaltReason) : (s.halt h).eip = s.eip := rfl
@[simp] theorem halt_flags (h : HaltReason) : (s.halt h).flags = s.flags := rfl
@[simp] theorem halt_mem (h : HaltReason) : (s.halt h).mem = s.mem := rfl
@[simp] theorem halt_status (h : HaltReason) : (s.halt h).status = .halted h := rfl
@[simp] theorem halt_trace (h : HaltReason) : (s.halt h).trace = s.trace := rfl

@[simp] theorem emit_regs (op : Byte) : (s.emit op).regs = s.regs := rfl
@[simp] theorem emit_eip (op : Byte) : (s.emit op).eip = s.eip := rfl
@[simp] theorem emit_flags (op : Byte) : (s.emit op).flags = s.flags := rfl
@[simp] theorem emit_mem (op : Byte) : (s.emit op).mem = s.mem := rfl
@[simp] theorem emit_status (op : Byte) : (s.emit op).status = s.status := rfl
@[simp] theorem emit_trace (op : Byte) : (s.emit op).trace = s.trace ++ [{ eip := s.eip, opcode := op }] := rfl

@[simp] theorem getReg_setMem (m : Memory) (r : Reg) : (s.setMem m).getReg r = s.getReg r := rfl
@[simp] theorem getReg_setEip (w : Word) (r : Reg) : (s.setEip w).getReg r = s.getReg r := rfl
@[simp] theorem getReg_advance (n : Nat) (r : Reg) : (s.advance n).getReg r = s.getReg r := rfl
@[simp] theorem getReg_setRegs (x : Regs) (r : Reg) : (s.setRegs x).getReg r = x.get r := rfl

end Sys2Proof.Machine
end

