-- ==== Sys2Proof/Laws/Memory.lean ====
section
/-! SUPPORT. The laws of memory: read after write, what a write leaves alone, the canonical form kept by every memory
operation, and what a dword access answers (20_memory.md R24 to R28). -/

namespace Sys2Proof.Machine

/-! ## Except, taken apart -/

@[simp] theorem except_bind_ok {ε α β : Type} (a : α) (f : α → Except ε β) : (Except.ok a >>= f) = f a := rfl

@[simp] theorem except_bind_error {ε α β : Type} (e : ε) (f : α → Except ε β) :
    ((Except.error e : Except ε α) >>= f) = .error e := rfl

@[simp] theorem except_pure {ε α : Type} (a : α) : (pure a : Except ε α) = .ok a := rfl

theorem except_bind_eq_ok {ε α β : Type} {x : Except ε α} {f : α → Except ε β} {b : β} :
    (x >>= f) = .ok b ↔ ∃ a, x = .ok a ∧ f a = .ok b := by
  cases x <;> simp

theorem except_bind_eq_error {ε α β : Type} {x : Except ε α} {f : α → Except ε β} {e : ε} :
    (x >>= f) = .error e ↔ x = .error e ∨ ∃ a, x = .ok a ∧ f a = .error e := by
  cases x <;> simp

/-! ## Lists of cells -/

theorem cellsGet_erase_self (cs : List Host.Cell) (a : Nat) : cellsGet (cellsErase cs a) a = 0#8 := by
  induction cs with
  | nil => rfl
  | cons c cs ih =>
    simp only [cellsErase]
    split
    · exact ih
    · next h => simp only [cellsGet, h, if_false, ih]

theorem cellsGet_erase_other (cs : List Host.Cell) {a b : Nat} (h : b ≠ a) :
    cellsGet (cellsErase cs a) b = cellsGet cs b := by
  induction cs with
  | nil => rfl
  | cons c cs ih =>
    simp only [cellsErase]
    split
    · next hc => rw [ih, cellsGet, if_neg (by omega)]
    · simp only [cellsGet, ih]

theorem cellsGet_insert (cs : List Host.Cell) (a b : Nat) (v : Byte) (h : ∀ c ∈ cs, c.1 ≠ a) :
    cellsGet (cellsInsert cs a v) b = if b = a then v else cellsGet cs b := by
  induction cs with
  | nil =>
    by_cases hb : b = a
    · subst hb; simp [cellsInsert, cellsGet]
    · simp [cellsInsert, cellsGet, hb, Ne.symm hb]
  | cons c cs ih =>
    have ih := ih (fun c' hc' => h c' (List.mem_cons_of_mem c hc'))
    have hc := h c (List.mem_cons_self ..)
    simp only [cellsInsert]
    split
    · by_cases hb : b = a
      · subst hb; simp [cellsGet]
      · simp [cellsGet, hb, Ne.symm hb]
    · by_cases hcb : c.1 = b
      · have : b ≠ a := fun e => hc (hcb.trans e)
        simp [cellsGet, hcb, this]
      · simp only [cellsGet, hcb, if_false, ih]

theorem mem_erase {cs : List Host.Cell} {a : Nat} {c : Host.Cell} (h : c ∈ cellsErase cs a) : c ∈ cs ∧ c.1 ≠ a := by
  induction cs with
  | nil => simp [cellsErase] at h
  | cons d cs ih =>
    simp only [cellsErase] at h
    split at h
    · exact ⟨List.mem_cons_of_mem d (ih h).1, (ih h).2⟩
    · next hd =>
      rcases List.mem_cons.mp h with rfl | h
      · exact ⟨List.mem_cons_self .., hd⟩
      · exact ⟨List.mem_cons_of_mem d (ih h).1, (ih h).2⟩

theorem mem_insert {cs : List Host.Cell} {a : Nat} {v : Byte} {c : Host.Cell} (h : c ∈ cellsInsert cs a v) :
    c = (a, v) ∨ c ∈ cs := by
  induction cs with
  | nil => simpa [cellsInsert] using h
  | cons d cs ih =>
    simp only [cellsInsert] at h
    split at h
    · simpa using h
    · rcases List.mem_cons.mp h with rfl | h
      · exact .inr (List.mem_cons_self ..)
      · exact (ih h).imp id (List.mem_cons_of_mem d)

theorem erase_sorted {cs : List Host.Cell} (a : Nat) (h : cs.Pairwise (fun c c' => c.1 < c'.1)) :
    (cellsErase cs a).Pairwise (fun c c' => c.1 < c'.1) := by
  induction cs with
  | nil => exact h
  | cons d cs ih =>
    obtain ⟨hd, hcs⟩ := List.pairwise_cons.mp h
    simp only [cellsErase]
    split
    · exact ih hcs
    · exact List.pairwise_cons.mpr ⟨fun c hc => hd c (mem_erase hc).1, ih hcs⟩

theorem insert_sorted {cs : List Host.Cell} {a : Nat} (v : Byte) (h : cs.Pairwise (fun c c' => c.1 < c'.1))
    (ha : ∀ c ∈ cs, c.1 ≠ a) : (cellsInsert cs a v).Pairwise (fun c c' => c.1 < c'.1) := by
  induction cs with
  | nil => simp [cellsInsert]
  | cons d cs ih =>
    obtain ⟨hd, hcs⟩ := List.pairwise_cons.mp h
    have hda := ha d (List.mem_cons_self ..)
    simp only [cellsInsert]
    split
    · next hlt =>
      refine List.pairwise_cons.mpr ⟨fun c hc => ?_, h⟩
      rcases List.mem_cons.mp hc with rfl | hc
      · exact hlt
      · exact Nat.lt_trans hlt (hd c hc)
    · next hge =>
      refine List.pairwise_cons.mpr ⟨fun c hc => ?_, ih hcs (fun c hc => ha c (List.mem_cons_of_mem d hc))⟩
      rcases mem_insert hc with rfl | hc
      · show d.1 < a
        omega
      · exact hd c hc

/-! ## One byte -/

@[simp] theorem put_size (m : Memory) (a : Nat) (v : Byte) : (m.put a v).size = m.size := rfl

theorem get_put (m : Memory) (a b : Nat) (v : Byte) : (m.put a v).get b = if b = a then v else m.get b := by
  unfold Memory.put Memory.get
  by_cases hv : v = 0#8
  · by_cases hb : b = a
    · simp [hv, hb, cellsGet_erase_self]
    · simp [hv, hb, cellsGet_erase_other m.cells hb]
  · rw [if_neg hv, cellsGet_insert _ _ _ _ (fun c hc => (mem_erase hc).2)]
    by_cases hb : b = a
    · simp [hb]
    · simp [hb, cellsGet_erase_other m.cells hb]

/-- Setting a byte in bounds keeps the canonical form. -/
theorem put_wf {m : Memory} (h : m.wf) {a : Nat} (ha : a < m.size) (v : Byte) : (m.put a v).wf := by
  obtain ⟨hs, hc, hz⟩ := h
  unfold Memory.put
  by_cases hv : v = 0#8
  · rw [if_pos hv]
    exact ⟨erase_sorted a hs, fun c hc' => hc c (mem_erase hc').1, hz⟩
  · rw [if_neg hv]
    refine ⟨insert_sorted v (erase_sorted a hs) (fun c hc' => (mem_erase hc').2), fun c hc' => ?_, hz⟩
    rcases mem_insert hc' with rfl | hc'
    · exact ⟨hv, ha⟩
    · exact hc c (mem_erase hc').1

theorem memReadU8_ok_iff (m : Memory) (a : Nat) (v : Byte) : memReadU8 m a = .ok v ↔ a < m.size ∧ m.get a = v := by
  unfold memReadU8
  split <;> simp [*]

theorem memReadU8_in {m : Memory} {a : Nat} (h : a < m.size) : memReadU8 m a = .ok (m.get a) := if_pos h

theorem memReadU8_out {m : Memory} {a : Nat} (h : m.size ≤ a) : memReadU8 m a = .error (.outOfBounds a) :=
  if_neg (by omega)

theorem memWriteU8_in {m : Memory} {a : Nat} (h : a < m.size) (v : Byte) : memWriteU8 m a v = .ok (m.put a v) := if_pos h

theorem memWriteU8_out {m : Memory} {a : Nat} (h : m.size ≤ a) (v : Byte) :
    memWriteU8 m a v = .error (.outOfBounds a) := if_neg (by omega)

/-! ## One dword -/

/-- The dword at `a` of a memory that has all four bytes. -/
def dwordAt (m : Memory) (a : Nat) : Word := le32 (m.get a) (m.get (a + 1)) (m.get (a + 2)) (m.get (a + 3))

/-- The memory with the four bytes of `v` at `a`. -/
def putDword (m : Memory) (a : Nat) (v : Word) : Memory :=
  (((m.put a (byteOf v 0)).put (a + 1) (byteOf v 1)).put (a + 2) (byteOf v 2)).put (a + 3) (byteOf v 3)

@[simp] theorem putDword_size (m : Memory) (a : Nat) (v : Word) : (putDword m a v).size = m.size := rfl

/-- Four bytes taken from a dword assemble to it (R26). -/
@[simp] theorem le32_byteOf (v : Word) : le32 (byteOf v 0) (byteOf v 1) (byteOf v 2) (byteOf v 3) = v := by
  apply BitVec.eq_of_getLsbD_eq
  intro i hi
  simp only [le32, byteOf, BitVec.getLsbD_append, BitVec.getLsbD_extractLsb']
  split
  · simp only [show decide (i < 8) = true by simp; omega, Bool.true_and]; congr 1; omega
  · split
    · rw [show decide (i - 8 < 8) = true by simp; omega, Bool.true_and]; congr 1; omega
    · split
      · rw [show decide (i - 8 - 8 < 8) = true by simp; omega, Bool.true_and]; congr 1; omega
      · rw [show decide (i - 8 - 8 - 8 < 8) = true by simp; omega, Bool.true_and]; congr 1; omega

theorem get_putDword_outside (m : Memory) (a b : Nat) (v : Word) (h : b < a ∨ a + 4 ≤ b) :
    (putDword m a v).get b = m.get b := by
  simp only [putDword, get_put]
  rw [if_neg (by omega), if_neg (by omega), if_neg (by omega), if_neg (by omega)]

theorem get_putDword_byte (m : Memory) (a : Nat) (v : Word) (i : Nat) (h : i < 4) :
    (putDword m a v).get (a + i) = byteOf v i := by
  simp only [putDword, get_put]
  match i, h with
  | 0, _ => simp
  | 1, _ => simp
  | 2, _ => simp
  | 3, _ => simp

theorem dwordAt_putDword (m : Memory) (a : Nat) (v : Word) : dwordAt (putDword m a v) a = v := by
  have h0 := get_putDword_byte m a v 0 (by omega)
  have h1 := get_putDword_byte m a v 1 (by omega)
  have h2 := get_putDword_byte m a v 2 (by omega)
  have h3 := get_putDword_byte m a v 3 (by omega)
  rw [Nat.add_zero] at h0
  simp only [dwordAt, h0, h1, h2, h3, le32_byteOf]

theorem putDword_wf {m : Memory} (h : m.wf) {a : Nat} (ha : a + 3 < m.size) (v : Word) : (putDword m a v).wf :=
  put_wf (put_wf (put_wf (put_wf h (by omega) _) (by simp; omega) _) (by simp; omega) _) (by simp; omega) _

/-- A dword read answers the dword when all four bytes are in bounds (R25, R28). -/
theorem memReadU32_in {m : Memory} {a : Word} (h : a.toNat + 3 < m.size) :
    memReadU32 m a = .ok (dwordAt m a.toNat) := by
  simp only [memReadU32, memReadU8_in (show a.toNat < m.size by omega), memReadU8_in (show a.toNat + 1 < m.size by omega),
    memReadU8_in (show a.toNat + 2 < m.size by omega), memReadU8_in h, except_bind_ok, except_pure, dwordAt]

/-- Otherwise it faults with the first address out of bounds (R25). -/
theorem memReadU32_out {m : Memory} {a : Word} (h : m.size ≤ a.toNat + 3) :
    memReadU32 m a = .error (.outOfBounds (max a.toNat m.size)) := by
  unfold memReadU32
  by_cases h0 : a.toNat < m.size
  · rw [memReadU8_in h0, except_bind_ok]
    by_cases h1 : a.toNat + 1 < m.size
    · rw [memReadU8_in h1, except_bind_ok]
      by_cases h2 : a.toNat + 2 < m.size
      · rw [memReadU8_in h2, except_bind_ok, memReadU8_out h, except_bind_error]
        congr 2; omega
      · rw [memReadU8_out (by omega), except_bind_error]
        congr 2; omega
    · rw [memReadU8_out (by omega), except_bind_error]
      congr 2; omega
  · rw [memReadU8_out (by omega), except_bind_error]
    congr 2; omega

/-- A dword write stores its four bytes when all are in bounds (R26). -/
theorem memWriteU32_in {m : Memory} {a : Word} (h : a.toNat + 3 < m.size) (v : Word) :
    memWriteU32 m a v = .ok (putDword m a.toNat v) := by
  unfold memWriteU32 putDword
  rw [memWriteU8_in (by omega), except_bind_ok, memWriteU8_in (by rw [put_size]; omega), except_bind_ok,
    memWriteU8_in (by simp only [put_size]; omega), except_bind_ok, memWriteU8_in (by simp only [put_size]; omega)]

/-- Otherwise it faults with the first address out of bounds (R26). -/
theorem memWriteU32_out {m : Memory} {a : Word} (h : m.size ≤ a.toNat + 3) (v : Word) :
    memWriteU32 m a v = .error (.outOfBounds (max a.toNat m.size)) := by
  unfold memWriteU32
  by_cases h0 : a.toNat < m.size
  · rw [memWriteU8_in h0, except_bind_ok]
    by_cases h1 : a.toNat + 1 < m.size
    · rw [memWriteU8_in (by rw [put_size]; exact h1), except_bind_ok]
      by_cases h2 : a.toNat + 2 < m.size
      · rw [memWriteU8_in (by simp only [put_size]; exact h2), except_bind_ok,
          memWriteU8_out (by simp only [put_size]; exact h)]
        congr 2; omega
      · rw [memWriteU8_out (by simp only [put_size]; omega), except_bind_error]
        congr 2; omega
    · rw [memWriteU8_out (by rw [put_size]; omega), except_bind_error]
      congr 2; omega
  · rw [memWriteU8_out (by omega), except_bind_error]
    congr 2; omega

/-- Everything a dword write can do. -/
theorem memWriteU32_ok {m m' : Memory} {a v : Word} (h : memWriteU32 m a v = .ok m') :
    a.toNat + 3 < m.size ∧ m' = putDword m a.toNat v := by
  by_cases hb : a.toNat + 3 < m.size
  · rw [memWriteU32_in hb] at h
    exact ⟨hb, (Except.ok.inj h).symm⟩
  · rw [memWriteU32_out (by omega)] at h
    cases h

/-- Everything a dword read can do. -/
theorem memReadU32_ok {m : Memory} {a v : Word} (h : memReadU32 m a = .ok v) :
    a.toNat + 3 < m.size ∧ v = dwordAt m a.toNat := by
  by_cases hb : a.toNat + 3 < m.size
  · rw [memReadU32_in hb] at h
    exact ⟨hb, (Except.ok.inj h).symm⟩
  · rw [memReadU32_out (by omega)] at h
    cases h

/-- Every memory operation keeps the canonical form: the byte write. -/
theorem memWriteU8_wf {m m' : Memory} {a : Nat} {v : Byte} (hm : m.wf) (h : memWriteU8 m a v = .ok m') : m'.wf := by
  unfold memWriteU8 at h
  split at h
  · next ha => exact (Except.ok.inj h) ▸ put_wf hm ha v
  · cases h

/-- The dword write. -/
theorem memWriteU32_wf {m m' : Memory} {a v : Word} (hm : m.wf) (h : memWriteU32 m a v = .ok m') : m'.wf := by
  obtain ⟨hb, rfl⟩ := memWriteU32_ok h
  exact putDword_wf hm hb v

theorem memReadU8_putDword_outside (m : Memory) (a b : Nat) (v : Word) (h : b < a ∨ a + 4 ≤ b) :
    memReadU8 (putDword m a v) b = memReadU8 m b := by
  simp only [memReadU8, putDword_size, get_putDword_outside m a b v h]

theorem memReadU32_putDword (m : Memory) (a v : Word) (h : a.toNat + 3 < m.size) :
    memReadU32 (putDword m a.toNat v) a = .ok v := by
  rw [memReadU32_in (by simpa using h), dwordAt_putDword]

end Sys2Proof.Machine
end

