-- ==== Sys2Proof/Laws/Boot.lean ====
section
/-! SUPPORT. The laws of the reset procedure (70_reset_and_hazards.md R102): the image in canonical form. -/

namespace Sys2Proof.Machine

theorem imageCells_ge {base : Nat} {bs : List Byte} {c : Host.Cell} (h : c ∈ imageCells base bs) :
    base ≤ c.1 ∧ c.1 < base + bs.length ∧ c.2 ≠ 0#8 := by
  induction bs generalizing base with
  | nil => simp [imageCells] at h
  | cons b bs ih =>
    simp only [imageCells] at h
    split at h
    · obtain ⟨h1, h2, h3⟩ := ih h
      exact ⟨by omega, by simp only [List.length_cons]; omega, h3⟩
    · next hb =>
      rcases List.mem_cons.mp h with rfl | h
      · exact ⟨Nat.le_refl _, by simp, hb⟩
      · obtain ⟨h1, h2, h3⟩ := ih h
        exact ⟨by omega, by simp only [List.length_cons]; omega, h3⟩

theorem imageCells_sorted (base : Nat) (bs : List Byte) :
    (imageCells base bs).Pairwise (fun c c' => c.1 < c'.1) := by
  induction bs generalizing base with
  | nil => exact List.Pairwise.nil
  | cons b bs ih =>
    simp only [imageCells]
    split
    · exact ih _
    · exact List.pairwise_cons.mpr ⟨fun c hc => by have := (imageCells_ge hc).1; show base < c.1; omega, ih _⟩

/-- A byte of the image reads back, and an address below the image reads 0x00 (R23). -/
theorem cellsGet_imageCells (base : Nat) (bs : List Byte) (a : Nat) :
    cellsGet (imageCells base bs) a = if a < base then 0#8 else (bs[a - base]?).getD 0#8 := by
  induction bs generalizing base with
  | nil => simp [imageCells, cellsGet]
  | cons b bs ih =>
    by_cases hlt : a < base
    · rw [if_pos hlt]
      simp only [imageCells]
      split
      · rw [ih, if_pos (by omega)]
      · rw [cellsGet, if_neg (by show base ≠ a; omega), ih, if_pos (by omega)]
    · rw [if_neg hlt]
      by_cases he : a = base
      · subst he
        simp only [imageCells]
        split
        · next hb => rw [ih, if_pos (by omega)]; simp [hb]
        · rw [cellsGet, if_pos rfl]; simp
      · have hsub : a - base = (a - (base + 1)) + 1 := by omega
        simp only [imageCells]
        split
        · rw [ih, if_neg (by omega), hsub, List.getElem?_cons_succ]
        · rw [cellsGet, if_neg (by show base ≠ a; omega), ih, if_neg (by omega), hsub, List.getElem?_cons_succ]

/-- The memory that the reset procedure builds is in canonical form. -/
theorem boot_wf {loadBase initSp : Word} {image : List Byte} {s : State} (h : boot loadBase initSp image = some s) :
    s.mem.wf := by
  unfold boot at h
  split at h
  · next hz =>
    cases h
    refine ⟨imageCells_sorted _ _, fun c hc => ?_, hz⟩
    obtain ⟨-, h2, h3⟩ := imageCells_ge hc
    exact ⟨h3, h2⟩
  · cases h

end Sys2Proof.Machine
end

