-- ==== Sys2Proof/Laws/Decode.lean ====
section
/-! SUPPORT. The laws of decoding and encoding (30_encoding.md): the dispatch table against the list of handled bytes,
the fields of a ModRM byte, what `DecodeModRM` answers, and two sources that agree. -/

namespace Sys2Proof

open Machine (except_bind_ok except_bind_error except_pure except_bind_eq_ok except_bind_eq_error le32_byteOf)

/-! ## The dispatch table -/

/-- The table has no handler exactly for the bytes that R47 does not list. -/
theorem handlerOf_none_iff (op : Byte) : handlerOf op = none ↔ op ∉ handledOpcodes := by
  revert op; decide

/-- The opcode byte of a handler (R47). -/
def opcodeOf : Handler → Byte
  | .add01 => 0x01#8
  | .push50 r => 0x0A#5 ++ r
  | .pop58 r => 0x0B#5 ++ r
  | .push68 => 0x68#8
  | .push6A => 0x6A#8
  | .group83 => 0x83#8
  | .mov89 => 0x89#8
  | .mov8B => 0x8B#8
  | .movB8 r => 0x17#5 ++ r
  | .retC3 => 0xC3#8
  | .movC7 => 0xC7#8
  | .leaveC9 => 0xC9#8
  | .callE8 => 0xE8#8
  | .jmpE9 => 0xE9#8
  | .jmpEB => 0xEB#8
  | .groupFF => 0xFF#8

/-- The table sends one byte to each handler. -/
theorem handlerOf_some {op : Byte} {h : Handler} (hh : handlerOf op = some h) : op = opcodeOf h := by
  have all : ∀ op : Byte, (handlerOf op).all (fun h => op == opcodeOf h) = true := by decide
  have := all op
  rw [hh] at this
  simpa using this

theorem handlerOf_push (r : Field3) : handlerOf (0x0A#5 ++ r) = some (.push50 r) := by
  revert r; decide

theorem handlerOf_pop (r : Field3) : handlerOf (0x0B#5 ++ r) = some (.pop58 r) := by
  revert r; decide

theorem handlerOf_movImm (r : Field3) : handlerOf (0x17#5 ++ r) = some (.movB8 r) := by
  revert r; decide

/-! ## The ModRM byte -/

theorem modeField_modrmByte (mode : BitVec 2) (reg rm : Field3) : modeField (modrmByte mode reg rm) = mode := by
  revert mode reg rm; decide

theorem regField_modrmByte (mode : BitVec 2) (reg rm : Field3) : regField (modrmByte mode reg rm) = reg := by
  revert mode reg rm; decide

theorem rmField_modrmByte (mode : BitVec 2) (reg rm : Field3) : rmField (modrmByte mode reg rm) = rm := by
  revert mode reg rm; decide

theorem modrmByte_fields (m : Byte) : modrmByte (modeField m) (regField m) (rmField m) = m := by
  revert m; decide

/-! ## Well-formed descriptors -/

theorem wf_iff (d : Descriptor) :
    d.wf = true ↔ d.sib.isSome = needsSib d.mode d.rm ∧ dispFits d.mode d.rm d.disp = true := by
  simp [Descriptor.wf]

theorem wfExt_iff (d : Descriptor) (e : Field3) : d.wfExt e = true ↔ d.wf = true ∧ d.regOrOpcode = e := by
  simp [Descriptor.wfExt]

/-- `disp32` and `disp8` exclude each other (R42). -/
theorem needsDisp8_not_32 {mode : BitVec 2} {rm : Field3} (h : needsDisp8 mode = true) : needsDisp32 mode rm = false := by
  revert h; revert mode rm; decide

/-! ## Any source -/

section Source
variable {ε ε' : Type} {src : Source ε} {src' : Source ε'}

/-- Everything `decodeSib` can answer. -/
theorem decodeSib_ok {mode : BitVec 2} {rm : Field3} {k : Nat} {sib : Option Byte}
    (h : decodeSib src mode rm k = .ok sib) :
    (needsSib mode rm = false ∧ sib = none) ∨ (needsSib mode rm = true ∧ ∃ b, src.u8 k = .ok b ∧ sib = some b) := by
  unfold decodeSib at h
  split at h
  · next hn =>
    obtain ⟨b, hb, h⟩ := except_bind_eq_ok.mp h
    exact .inr ⟨hn, b, hb, (Except.ok.inj h).symm⟩
  · next hn => exact .inl ⟨by simpa using hn, (Except.ok.inj h).symm⟩

/-- Everything `decodeDisp` can answer. -/
theorem decodeDisp_ok {mode : BitVec 2} {rm : Field3} {k : Nat} {disp : Disp}
    (h : decodeDisp src mode rm k = .ok disp) :
    (needsDisp32 mode rm = true ∧ ∃ w, src.u32 k = .ok w ∧ disp = .disp32 w) ∨
      (needsDisp32 mode rm = false ∧ needsDisp8 mode = true ∧ ∃ b, src.u8 k = .ok b ∧ disp = .disp8 b) ∨
      (needsDisp32 mode rm = false ∧ needsDisp8 mode = false ∧ disp = .absent) := by
  unfold decodeDisp at h
  split at h
  · next hn =>
    obtain ⟨w, hw, h⟩ := except_bind_eq_ok.mp h
    exact .inl ⟨hn, w, hw, (Except.ok.inj h).symm⟩
  · next hn =>
    split at h
    · next hn8 =>
      obtain ⟨b, hb, h⟩ := except_bind_eq_ok.mp h
      exact .inr (.inl ⟨by simpa using hn, hn8, b, hb, (Except.ok.inj h).symm⟩)
    · next hn8 => exact .inr (.inr ⟨by simpa using hn, by simpa using hn8, (Except.ok.inj h).symm⟩)

/-- Everything `DecodeModRM` can answer (R43). -/
theorem decodeModRM_ok {k : Nat} {d : Descriptor} (h : decodeModRM src k = .ok d) :
    ∃ m, src.u8 k = .ok m ∧ d.mode = modeField m ∧ d.regOrOpcode = regField m ∧ d.rm = rmField m ∧
      decodeSib src d.mode d.rm (k + 1) = .ok d.sib ∧
      decodeDisp src d.mode d.rm (k + 1 + sibLength d.sib) = .ok d.disp := by
  unfold decodeModRM at h
  obtain ⟨m, hm, h⟩ := except_bind_eq_ok.mp h
  obtain ⟨sib, hs, h⟩ := except_bind_eq_ok.mp h
  obtain ⟨disp, hd, h⟩ := except_bind_eq_ok.mp h
  cases h
  exact ⟨m, hm, rfl, rfl, rfl, hs, hd⟩

/-- What `DecodeModRM` answers is well-formed (R41, R42). -/
theorem decodeModRM_wf {k : Nat} {d : Descriptor} (h : decodeModRM src k = .ok d) : d.wf = true := by
  obtain ⟨m, -, -, -, -, hs, hd⟩ := decodeModRM_ok h
  rw [wf_iff]
  refine ⟨?_, ?_⟩
  · rcases decodeSib_ok hs with ⟨hn, he⟩ | ⟨hn, b, -, he⟩ <;> simp [hn, he]
  · rcases decodeDisp_ok hd with ⟨hn, w, -, he⟩ | ⟨hn, hn8, b, -, he⟩ | ⟨hn, hn8, he⟩ <;>
      simp [dispFits, *]

/-- `src'` answers what `src` answers on the first `n` bytes. -/
structure AgreesOn (src : Source ε) (src' : Source ε') (n : Nat) : Prop where
  u8  : ∀ k b, k < n → src.u8 k = .ok b → src'.u8 k = .ok b
  u32 : ∀ k w, k + 3 < n → src.u32 k = .ok w → src'.u32 k = .ok w

theorem AgreesOn.mono {n n' : Nat} (h : AgreesOn src src' n) (hn : n' ≤ n) : AgreesOn src src' n' :=
  ⟨fun k b hk => h.u8 k b (by omega), fun k w hk => h.u32 k w (by omega)⟩

theorem decodeModRM_agrees {k n : Nat} {d : Descriptor} (ha : AgreesOn src src' n)
    (h : decodeModRM src k = .ok d) (hn : k + d.length ≤ n) : decodeModRM src' k = .ok d := by
  obtain ⟨m, hm, h1, h2, h3, hs, hd⟩ := decodeModRM_ok h
  unfold Descriptor.length at hn
  have hs' : decodeSib src' d.mode d.rm (k + 1) = .ok d.sib := by
    rcases decodeSib_ok hs with ⟨hns, he⟩ | ⟨hns, b, hb, he⟩
    · simp [decodeSib, hns, he]
    · have hlen : sibLength d.sib = 1 := by simp [he, sibLength]
      simp [decodeSib, hns, he, ha.u8 _ b (by omega) hb]
  have hd' : decodeDisp src' d.mode d.rm (k + 1 + sibLength d.sib) = .ok d.disp := by
    rcases decodeDisp_ok hd with ⟨hnd, w, hw, he⟩ | ⟨hnd, hn8, b, hb, he⟩ | ⟨hnd, hn8, he⟩
    · have hlen : dispLength d.disp = 4 := by simp [he, dispLength]
      simp [decodeDisp, hnd, he, ha.u32 _ w (by omega) hw]
    · have hlen : dispLength d.disp = 1 := by simp [he, dispLength]
      simp [decodeDisp, hnd, hn8, he, ha.u8 _ b (by omega) hb]
    · simp [decodeDisp, hnd, hn8, he]
  unfold decodeModRM
  rw [ha.u8 k m (by omega) hm, except_bind_ok, ← h1, ← h3, hs', except_bind_ok, hd', except_bind_ok, ← h2]
  rfl

theorem length_group83Fault (d : Descriptor) : (group83Fault d).length = 1 + d.length := by
  unfold group83Fault
  repeat' split
  all_goals rfl

theorem length_decodeGroupFF (d : Descriptor) : (decodeGroupFF d).length = 1 + d.length := by
  unfold decodeGroupFF
  repeat' split
  all_goals rfl

/-- What the second dispatch of 0x83 can answer. -/
theorem decodeGroup83_ok {d : Descriptor} {i : Instr} (h : decodeGroup83 src d = .ok i) :
    (∃ imm, src.operandRead d = .ok () ∧ src.u8 (1 + d.length) = .ok imm ∧
      ((opcodeExtension d = 0#3 ∧ i = .addRm32Imm8 d imm) ∨ (opcodeExtension d = 5#3 ∧ i = .subRm32Imm8 d imm))) ∨
    (opcodeExtension d ≠ 0#3 ∧ opcodeExtension d ≠ 5#3 ∧ i = group83Fault d) := by
  unfold decodeGroup83 at h
  split at h
  · next h0 =>
    obtain ⟨imm, hi, h⟩ := except_bind_eq_ok.mp h
    obtain ⟨u, hr, hi⟩ := except_bind_eq_ok.mp hi
    exact .inl ⟨imm, hr, hi, .inl ⟨h0, (Except.ok.inj h).symm⟩⟩
  · next h0 =>
    split at h
    · next h5 =>
      obtain ⟨imm, hi, h⟩ := except_bind_eq_ok.mp h
      obtain ⟨u, hr, hi⟩ := except_bind_eq_ok.mp hi
      exact .inl ⟨imm, hr, hi, .inr ⟨h5, (Except.ok.inj h).symm⟩⟩
    · next h5 => exact .inr ⟨h0, h5, (Except.ok.inj h).symm⟩

theorem decodeGroup83_operand_error {d : Descriptor} {e : ε} (hx : opcodeExtension d = 0#3 ∨ opcodeExtension d = 5#3)
    (h : src.operandRead d = .error e) : decodeGroup83 src d = .error e := by
  unfold decodeGroup83 decodeGroup83Imm
  rcases hx with hx | hx <;> simp [hx, h]

theorem decodeGroup83_imm {d : Descriptor} {imm : Byte} (h : src.operandRead d = .ok ())
    (hb : src.u8 (1 + d.length) = .ok imm) :
    (opcodeExtension d = 0#3 → decodeGroup83 src d = .ok (.addRm32Imm8 d imm)) ∧
      (opcodeExtension d = 5#3 → decodeGroup83 src d = .ok (.subRm32Imm8 d imm)) := by
  unfold decodeGroup83 decodeGroup83Imm
  constructor <;> intro hx <;> simp [hx, h, hb]

theorem decodeGroup83_fault {d : Descriptor} (h0 : opcodeExtension d ≠ 0#3) (h5 : opcodeExtension d ≠ 5#3) :
    decodeGroup83 src d = .ok (group83Fault d) := by
  simp [decodeGroup83, h0, h5]

/-- Two sources that agree on an instruction's bytes give the same instruction, but where the operand read of an 83
handler faults: then they give that fault (R94). -/
theorem decodeFrom_agrees {i : Instr} (ha : AgreesOn src src' i.length) (h : decodeFrom src = .ok i) :
    decodeFrom src' = .ok i ∨
      (∃ d e, operandBeforeImm i = some d ∧ src'.operandRead d = .error e ∧ decodeFrom src' = .error e) := by
  unfold decodeFrom at h ⊢
  obtain ⟨op, hop, h⟩ := except_bind_eq_ok.mp h
  have hpos : 0 < i.length := by cases i <;> simp only [Instr.length] <;> omega
  rw [ha.u8 0 op hpos hop, except_bind_ok]
  cases hh : handlerOf op with
  | none =>
    rw [hh] at h
    cases h
    exact .inl rfl
  | some hd =>
    rw [hh] at h
    dsimp only at h ⊢
    cases hd <;> simp only [decodeHandler] at h ⊢
    case push50 r => cases h; exact .inl rfl
    case pop58 r => cases h; exact .inl rfl
    case retC3 => cases h; exact .inl rfl
    case leaveC9 => cases h; exact .inl rfl
    case push68 | movB8 | callE8 | jmpE9 =>
      obtain ⟨w, hw, h⟩ := except_bind_eq_ok.mp h
      cases h
      rw [ha.u32 1 w (by simp [Instr.length]) hw]
      exact .inl rfl
    case push6A | jmpEB =>
      obtain ⟨b, hb, h⟩ := except_bind_eq_ok.mp h
      cases h
      rw [ha.u8 1 b (by simp [Instr.length]) hb]
      exact .inl rfl
    case add01 | mov89 | mov8B =>
      obtain ⟨d, hd, h⟩ := except_bind_eq_ok.mp h
      cases h
      rw [decodeModRM_agrees ha hd (by simp [Instr.length])]
      exact .inl rfl
    case movC7 =>
      obtain ⟨d, hd, h⟩ := except_bind_eq_ok.mp h
      obtain ⟨w, hw, h⟩ := except_bind_eq_ok.mp h
      cases h
      rw [decodeModRM_agrees ha hd (by simp [Instr.length]), except_bind_ok,
        ha.u32 _ w (by simp [Instr.length]) hw]
      exact .inl rfl
    case groupFF =>
      obtain ⟨d, hd, h⟩ := except_bind_eq_ok.mp h
      cases h
      rw [decodeModRM_agrees ha hd (by rw [length_decodeGroupFF])]
      exact .inl rfl
    case group83 =>
      obtain ⟨d, hd, h⟩ := except_bind_eq_ok.mp h
      rcases decodeGroup83_ok h with ⟨imm, -, hi, hx⟩ | ⟨h0, h5, rfl⟩
      · have hlen : i.length = 1 + d.length + 1 := by rcases hx with ⟨-, rfl⟩ | ⟨-, rfl⟩ <;> rfl
        rw [decodeModRM_agrees ha hd (by omega), except_bind_ok]
        cases hr : src'.operandRead d with
        | error e =>
          refine .inr ⟨d, e, ?_, hr, decodeGroup83_operand_error (hx.imp And.left And.left) hr⟩
          rcases hx with ⟨-, rfl⟩ | ⟨-, rfl⟩ <;> rfl
        | ok u =>
          have hg := decodeGroup83_imm hr (ha.u8 _ imm (by omega) hi)
          rcases hx with ⟨he, rfl⟩ | ⟨he, rfl⟩
          · exact .inl (hg.1 he)
          · exact .inl (hg.2 he)
      · rw [decodeModRM_agrees ha hd (by rw [length_group83Fault]), except_bind_ok, decodeGroup83_fault h0 h5]
        exact .inl rfl

/-! ## A source that is cut off -/

/-- `src'` answers what `src` answers before byte `n`, and the fault `e` for any access that reaches byte `n`. -/
structure CutsAt (src : Source ε) (src' : Source ε') (n : Nat) (e : ε') : Prop where
  agrees : AgreesOn src src' n
  u8     : src'.u8 n = .error e
  u32    : ∀ k, k ≤ n → n ≤ k + 3 → src'.u32 k = .error e

theorem decodeModRM_cut {k n : Nat} {d : Descriptor} {e : ε'} (hc : CutsAt src src' n e)
    (h : decodeModRM src k = .ok d) (hk : k ≤ n) (hn : n < k + d.length) : decodeModRM src' k = .error e := by
  obtain ⟨m, hm, h1, h2, h3, hs, hd⟩ := decodeModRM_ok h
  unfold Descriptor.length at hn
  unfold decodeModRM
  by_cases hkn : n = k
  · subst hkn; rw [hc.u8]; rfl
  rw [hc.agrees.u8 k m (by omega) hm, except_bind_ok, ← h1, ← h3]
  rcases decodeSib_ok hs with ⟨hns, he⟩ | ⟨hns, b, hb, he⟩
  · have hs' : decodeSib src' d.mode d.rm (k + 1) = .ok none := by simp [decodeSib, hns]
    rw [hs', except_bind_ok]
    rw [he] at hd hn
    have hl : sibLength none = 0 := rfl
    rcases decodeDisp_ok hd with ⟨hnd, w, hw, he'⟩ | ⟨hnd, hn8, b, hb, he'⟩ | ⟨hnd, hn8, he'⟩
    · rw [he', hl] at hn
      simp only [dispLength] at hn
      simp [decodeDisp, hnd, hl, hc.u32 (k + 1) (by omega) (by omega)]
    · rw [he', hl] at hn
      simp only [dispLength] at hn
      obtain rfl : n = k + 1 := by omega
      simp [decodeDisp, hnd, hn8, hl, hc.u8]
    · rw [he', hl] at hn
      simp only [dispLength] at hn
      omega
  · by_cases hk1 : n = k + 1
    · subst hk1
      simp [decodeSib, hns, hc.u8]
    have hs' : decodeSib src' d.mode d.rm (k + 1) = .ok (some b) := by
      simp [decodeSib, hns, hc.agrees.u8 _ b (by omega) hb]
    rw [hs', except_bind_ok]
    rw [he] at hd hn
    have hl : sibLength (some b) = 1 := rfl
    rcases decodeDisp_ok hd with ⟨hnd, w, hw, he'⟩ | ⟨hnd, hn8, b', hb', he'⟩ | ⟨hnd, hn8, he'⟩
    · rw [he', hl] at hn
      simp only [dispLength] at hn
      simp [decodeDisp, hnd, hl, hc.u32 (k + 1 + 1) (by omega) (by omega)]
    · rw [he', hl] at hn
      simp only [dispLength] at hn
      obtain rfl : n = k + 1 + 1 := by omega
      simp [decodeDisp, hnd, hn8, hl, hc.u8]
    · rw [he', hl] at hn
      simp only [dispLength] at hn
      omega

/-- Where the source is cut off inside the instruction, decoding gives that fault; before the immediate of an 83
handler only if its operand reads (R94). -/
theorem decodeFrom_cut {i : Instr} {n : Nat} {e : ε'} (hc : CutsAt src src' n e) (h : decodeFrom src = .ok i)
    (hn : n < i.length)
    (hop : ∀ d, operandBeforeImm i = some d → n = 1 + d.length → src'.operandRead d = .ok ()) :
    decodeFrom src' = .error e := by
  unfold decodeFrom at h ⊢
  obtain ⟨op, hop0, h⟩ := except_bind_eq_ok.mp h
  by_cases h0 : n = 0
  · subst h0; rw [hc.u8]; rfl
  rw [hc.agrees.u8 0 op (by omega) hop0, except_bind_ok]
  cases hh : handlerOf op with
  | none =>
    rw [hh] at h
    cases h
    simp only [Instr.length] at hn
    omega
  | some hd =>
    rw [hh] at h
    dsimp only at h ⊢
    cases hd <;> simp only [decodeHandler] at h ⊢
    case push50 | pop58 | retC3 | leaveC9 =>
      cases h
      simp only [Instr.length] at hn
      omega
    case push68 | movB8 | callE8 | jmpE9 =>
      obtain ⟨w, hw, h⟩ := except_bind_eq_ok.mp h
      cases h
      simp only [Instr.length] at hn
      rw [hc.u32 1 (by omega) (by omega)]; rfl
    case push6A | jmpEB =>
      obtain ⟨b, hb, h⟩ := except_bind_eq_ok.mp h
      cases h
      simp only [Instr.length] at hn
      obtain rfl : n = 1 := by omega
      rw [hc.u8]; rfl
    case add01 | mov89 | mov8B =>
      obtain ⟨d, hd, h⟩ := except_bind_eq_ok.mp h
      cases h
      rw [decodeModRM_cut hc hd (by omega) hn]; rfl
    case movC7 =>
      obtain ⟨d, hd, h⟩ := except_bind_eq_ok.mp h
      obtain ⟨w, hw, h⟩ := except_bind_eq_ok.mp h
      cases h
      simp only [Instr.length] at hn
      by_cases hlt : n < 1 + d.length
      · rw [decodeModRM_cut hc hd (by omega) hlt]; rfl
      · rw [decodeModRM_agrees hc.agrees hd (by omega), except_bind_ok, hc.u32 _ (by omega) (by omega)]; rfl
    case groupFF =>
      obtain ⟨d, hd, h⟩ := except_bind_eq_ok.mp h
      cases h
      rw [length_decodeGroupFF] at hn
      rw [decodeModRM_cut hc hd (by omega) hn]; rfl
    case group83 =>
      obtain ⟨d, hd, h⟩ := except_bind_eq_ok.mp h
      by_cases hlt : n < 1 + d.length
      · rw [decodeModRM_cut hc hd (by omega) hlt]; rfl
      rcases decodeGroup83_ok h with ⟨imm, -, -, hx⟩ | ⟨-, -, rfl⟩
      · have hl : i.length = 1 + d.length + 1 := by rcases hx with ⟨-, rfl⟩ | ⟨-, rfl⟩ <;> rfl
        have ho : operandBeforeImm i = some d := by rcases hx with ⟨-, rfl⟩ | ⟨-, rfl⟩ <;> rfl
        have hnd : n = 1 + d.length := by omega
        rw [decodeModRM_agrees hc.agrees hd (by omega), except_bind_ok]
        have hu : src'.u8 (1 + d.length) = .error e := hnd ▸ hc.u8
        have hr := hop d ho hnd
        rcases hx with ⟨he, -⟩ | ⟨he, -⟩ <;> simp [decodeGroup83, decodeGroup83Imm, he, hr, hu]
      · rw [length_group83Fault] at hn
        omega

end Source

/-! ## Lists of bytes -/

theorem listU8_ok_iff (bs : List Byte) (k : Nat) (b : Byte) : listU8 bs k = .ok b ↔ bs[k]? = some b := by
  unfold listU8
  cases bs[k]? <;> simp

theorem listU32_ok_iff (bs : List Byte) (k : Nat) (w : Word) :
    listU32 bs k = .ok w ↔ ∃ b0 b1 b2 b3, bs[k]? = some b0 ∧ bs[k + 1]? = some b1 ∧ bs[k + 2]? = some b2 ∧
      bs[k + 3]? = some b3 ∧ w = le32 b0 b1 b2 b3 := by
  unfold listU32
  simp only [except_bind_eq_ok, listU8_ok_iff, except_pure, Except.ok.injEq]
  constructor
  · rintro ⟨b0, h0, b1, h1, b2, h2, b3, h3, e⟩
    exact ⟨b0, b1, b2, b3, h0, h1, h2, h3, e.symm⟩
  · rintro ⟨b0, b1, b2, b3, h0, h1, h2, h3, e⟩
    exact ⟨b0, h0, b1, h1, b2, h2, b3, h3, e.symm⟩

/-- The dword at the front of a list's tail. -/
theorem listU32_bytes32 (pre rest : List Byte) (w : Word) (k : Nat) (hk : k = pre.length) :
    listU32 (pre ++ (bytes32 w ++ rest)) k = .ok w := by
  rw [listU32_ok_iff]
  refine ⟨byteOf w 0, byteOf w 1, byteOf w 2, byteOf w 3, ?_, ?_, ?_, ?_, (le32_byteOf w).symm⟩ <;>
    simp [hk, bytes32]

theorem listU8_append (pre rest : List Byte) (b : Byte) (k : Nat) (hk : k = pre.length) :
    listU8 (pre ++ (b :: rest)) k = .ok b := by
  rw [listU8_ok_iff]
  simp [hk]

theorem length_dispBytes (d : Disp) : (dispBytes d).length = dispLength d := by
  cases d <;> rfl

theorem length_sib (s : Option Byte) : s.toList.length = sibLength s := by
  cases s <;> rfl

/-- `L` counts the bytes of the descriptor (R44). -/
theorem length_modrmBytes (d : Descriptor) : (modrmBytes d).length = d.length := by
  simp only [modrmBytes, List.length_cons, List.length_append, length_sib, length_dispBytes, Descriptor.length]
  omega

theorem length_opcode_modrm (op : Byte) (d : Descriptor) : (op :: modrmBytes d).length = 1 + d.length := by
  rw [List.length_cons, length_modrmBytes, Nat.add_comm]

theorem length_opcode_modrm_append (op : Byte) (d : Descriptor) (tail : List Byte) :
    (op :: (modrmBytes d ++ tail)).length = 1 + d.length + tail.length := by
  rw [List.length_cons, List.length_append, length_modrmBytes]
  omega

theorem bytes32_le32 (b0 b1 b2 b3 : Byte) : bytes32 (le32 b0 b1 b2 b3) = [b0, b1, b2, b3] := by
  simp only [bytes32, List.cons.injEq, and_true]
  refine ⟨?_, ?_, ?_, ?_⟩ <;>
  · apply BitVec.eq_of_getLsbD_eq
    intro i hi
    simp only [le32, byteOf, BitVec.getLsbD_append, BitVec.getLsbD_extractLsb']
    simp only [show decide (i < 8) = true by simp; omega, Bool.true_and]
    first
    | rw [if_pos (by omega)]; congr 1; omega
    | rw [if_neg (by omega), if_pos (by omega)]; congr 1; omega
    | rw [if_neg (by omega), if_neg (by omega), if_pos (by omega)]; congr 1; omega
    | rw [if_neg (by omega), if_neg (by omega), if_neg (by omega)]; congr 1; omega

/-- `DecodeModRM` reads back a well-formed descriptor's bytes. -/
theorem decodeModRM_modrmBytes (op : Byte) (d : Descriptor) (rest : List Byte) (h : d.wf = true) :
    decodeModRM (listSource (op :: (modrmBytes d ++ rest))) 1 = .ok d := by
  obtain ⟨hs, hd⟩ := (wf_iff d).mp h
  have e1 : op :: (modrmBytes d ++ rest) =
      [op] ++ (modrmByte d.mode d.regOrOpcode d.rm :: (d.sib.toList ++ dispBytes d.disp ++ rest)) := by
    simp [modrmBytes]
  have hsib : decodeSib (listSource (op :: (modrmBytes d ++ rest))) d.mode d.rm 2 = .ok d.sib := by
    unfold decodeSib
    rw [← hs]
    cases he : d.sib with
    | none => rfl
    | some b =>
      have e2 : op :: (modrmBytes d ++ rest) =
          [op, modrmByte d.mode d.regOrOpcode d.rm] ++ (b :: (dispBytes d.disp ++ rest)) := by
        simp [modrmBytes, he]
      simp only [Option.isSome_some, if_true, listSource, e2]
      rw [listU8_append [op, modrmByte d.mode d.regOrOpcode d.rm] _ b 2 rfl]; rfl
  have hdisp : decodeDisp (listSource (op :: (modrmBytes d ++ rest))) d.mode d.rm (2 + sibLength d.sib)
      = .ok d.disp := by
    have hk : 2 + sibLength d.sib = (op :: modrmByte d.mode d.regOrOpcode d.rm :: d.sib.toList).length := by
      simp only [List.length_cons, length_sib]; omega
    have e3 : op :: (modrmBytes d ++ rest) =
        (op :: modrmByte d.mode d.regOrOpcode d.rm :: d.sib.toList) ++ (dispBytes d.disp ++ rest) := by
      simp [modrmBytes]
    unfold decodeDisp
    cases he : d.disp with
    | absent =>
      simp only [he, dispFits, Bool.and_eq_true, Bool.not_eq_true'] at hd
      rw [hd.1, hd.2]; rfl
    | disp8 b =>
      simp only [he, dispFits] at hd
      rw [needsDisp8_not_32 hd, hd]
      rw [he] at e3
      simp only [Bool.false_eq_true, if_false, if_true, listSource, e3, dispBytes]
      rw [show ([b] ++ rest) = b :: rest from rfl, listU8_append _ _ _ _ hk]; rfl
    | disp32 w =>
      simp only [he, dispFits] at hd
      rw [hd]
      rw [he] at e3
      simp only [if_true, listSource, e3, dispBytes]
      rw [listU32_bytes32 _ _ _ _ hk]; rfl
  unfold decodeModRM
  have hm : (listSource (op :: (modrmBytes d ++ rest))).u8 1 = .ok (modrmByte d.mode d.regOrOpcode d.rm) := by
    simp only [listSource, e1]
    exact listU8_append _ _ _ _ rfl
  rw [hm, except_bind_ok, modeField_modrmByte, rmField_modrmByte, regField_modrmByte, hsib, except_bind_ok,
    hdisp, except_bind_ok]
  rfl

end Sys2Proof
end

