-- ==== Sys2Proof/Laws/Registers.lean ====
section
/-! SUPPORT. The laws of the register file (10_state.md R12 to R14). -/

namespace Sys2Proof.Machine

@[simp] theorem regs_get_set_self (x : Regs) (r : Reg) (v : Word) : (x.set r v).get r = v := by
  cases r <;> rfl

theorem regs_get_set_other (x : Regs) {r q : Reg} (v : Word) (h : q ≠ r) : (x.set r v).get q = x.get q := by
  cases r <;> cases q <;> first | rfl | exact absurd rfl h

theorem regs_get_set (x : Regs) (r q : Reg) (v : Word) :
    (x.set r v).get q = if q = r then v else x.get q := by
  split
  · next h => rw [h, regs_get_set_self]
  · next h => exact regs_get_set_other x v h

theorem regs_ext {x y : Regs} (h : ∀ r, x.get r = y.get r) : x = y := by
  cases x; cases y
  simp only [Regs.mk.injEq]
  exact ⟨h .EAX, h .ECX, h .EDX, h .EBX, h .ESP, h .EBP, h .ESI, h .EDI⟩

theorem regs_set_set (x : Regs) (r : Reg) (v w : Word) : (x.set r v).set r w = x.set r w := by
  cases r <;> rfl

theorem regs_set_get (x : Regs) (r : Reg) : x.set r (x.get r) = x := by
  cases r <;> rfl

@[simp] theorem getReg_setReg_self (s : State) (r : Reg) (v : Word) : (s.setReg r v).getReg r = v :=
  regs_get_set_self s.regs r v

theorem getReg_setReg_other (s : State) {r q : Reg} (v : Word) (h : q ≠ r) : (s.setReg r v).getReg q = s.getReg q :=
  regs_get_set_other s.regs v h

/-- Every 3-bit field names a register. -/
theorem ofIndex_field (r : Field3) : Reg.ofIndex r.toNat = some (Reg.ofField r) := by
  revert r; decide

theorem ofField_index (r : Reg) : Reg.ofField r.index = r := by
  cases r <;> rfl

theorem index_ofField (r : Field3) : (Reg.ofField r).index = r := by
  revert r; decide

theorem ofField_injective {r q : Field3} (h : Reg.ofField r = Reg.ofField q) : r = q := by
  rw [← index_ofField r, h, index_ofField]

/-- Reading through a 3-bit field never faults (R13). -/
@[simp] theorem readReg_field (x : Regs) (r : Field3) : readReg x r.toNat = .ok (x.get (Reg.ofField r)) := by
  simp only [readReg, ofIndex_field]

@[simp] theorem writeReg_field (x : Regs) (r : Field3) (v : Word) :
    writeReg x r.toNat v = .ok (x.set (Reg.ofField r) v) := by
  simp only [writeReg, ofIndex_field]

theorem ofIndex_none_iff (i : Nat) : Reg.ofIndex i = none ↔ 8 ≤ i := by
  match i with
  | 0 | 1 | 2 | 3 | 4 | 5 | 6 | 7 => simp [Reg.ofIndex]
  | n + 8 => simp [Reg.ofIndex]

theorem ofIndex_lt {i : Nat} (h : i < 8) : ∃ r, Reg.ofIndex i = some r := by
  cases hr : Reg.ofIndex i with
  | some r => exact ⟨r, rfl⟩
  | none => exact absurd ((ofIndex_none_iff i).mp hr) (by omega)

end Sys2Proof.Machine
end

