-- ==== Sys2Proof/Laws/Operands.lean ====
section
/-! SUPPORT. What the stack primitives and the operand accessors can answer, once each (42_stack.md R64, R65;
40_addressing_operands.md R54 to R57). -/

namespace Sys2Proof.Machine

/-- `t` differs from `s` at most in registers and memory; memory keeps its size and, if it had it, its canonical form. -/
structure DataStep (s t : State) : Prop where
  eip    : t.eip = s.eip
  flags  : t.flags = s.flags
  status : t.status = s.status
  trace  : t.trace = s.trace
  size   : t.mem.size = s.mem.size
  wf     : s.mem.wf → t.mem.wf

theorem DataStep.refl (s : State) : DataStep s s := ⟨rfl, rfl, rfl, rfl, rfl, id⟩

theorem DataStep.trans {s t u : State} (h : DataStep s t) (h' : DataStep t u) : DataStep s u :=
  ⟨h'.eip.trans h.eip, h'.flags.trans h.flags, h'.status.trans h.status, h'.trace.trans h.trace,
    h'.size.trans h.size, h'.wf ∘ h.wf⟩

theorem setRegs_dataStep (s : State) (x : Regs) : DataStep s (s.setRegs x) := ⟨rfl, rfl, rfl, rfl, rfl, id⟩

theorem setReg_dataStep (s : State) (r : Reg) (v : Word) : DataStep s (s.setReg r v) := setRegs_dataStep s _

/-- The block's defensive faults, which no instruction reaches (R13, R54). -/
def Defensive : FaultReason → Prop
  | .invalidRegisterIndex _ => True
  | .invalidAddressingMode => True
  | .unimplementedGroupExtension _ _ => False
  | .unsupportedSIB _ => False
  | .outOfBounds _ => False

/-! ## Dword faults -/

theorem memReadU32_error {m : Memory} {a : Word} {r : FaultReason} (h : memReadU32 m a = .error r) :
    m.size ≤ a.toNat + 3 ∧ r = .outOfBounds (max a.toNat m.size) := by
  by_cases hb : a.toNat + 3 < m.size
  · rw [memReadU32_in hb] at h; cases h
  · rw [memReadU32_out (by omega)] at h
    exact ⟨by omega, (Except.error.inj h).symm⟩

theorem memWriteU32_error {m : Memory} {a v : Word} {r : FaultReason} (h : memWriteU32 m a v = .error r) :
    m.size ≤ a.toNat + 3 ∧ r = .outOfBounds (max a.toNat m.size) := by
  by_cases hb : a.toNat + 3 < m.size
  · rw [memWriteU32_in hb] at h; cases h
  · rw [memWriteU32_out (by omega)] at h
    exact ⟨by omega, (Except.error.inj h).symm⟩

theorem storedAt_putDword {m : Memory} {a : Word} (v : Word) (h : a.toNat + 3 < m.size) :
    StoredAt a v m (putDword m a.toNat v) :=
  ⟨memReadU32_putDword m a v h, fun b hb => memReadU8_putDword_outside m a.toNat b v hb⟩

theorem memSame_refl (m : Memory) : MemSame m m := fun _ => rfl

/-! ## The stack -/

/-- Everything `Push32` can do when it completes (R64). -/
theorem push32_ok {s t : State} {v : Word} (h : push32 s v = .ok t) :
    (s.getReg .ESP - 4#32).toNat + 3 < s.mem.size ∧
      t = (s.setReg .ESP (s.getReg .ESP - 4#32)).setMem (putDword s.mem (s.getReg .ESP - 4#32).toNat v) := by
  unfold push32 at h
  obtain ⟨m, hm, ht⟩ := except_bind_eq_ok.mp h
  simp only [getReg_setReg_self, setReg_mem] at hm
  obtain ⟨hb, rfl⟩ := memWriteU32_ok hm
  exact ⟨hb, (Except.ok.inj ht).symm⟩

theorem push32_in {s : State} (v : Word) (h : (s.getReg .ESP - 4#32).toNat + 3 < s.mem.size) :
    push32 s v =
      .ok ((s.setReg .ESP (s.getReg .ESP - 4#32)).setMem (putDword s.mem (s.getReg .ESP - 4#32).toNat v)) := by
  simp only [push32, getReg_setReg_self, setReg_mem, memWriteU32_in h, except_bind_ok, except_pure]

theorem push32_out {s : State} (v : Word) (h : s.mem.size ≤ (s.getReg .ESP - 4#32).toNat + 3) :
    push32 s v = .error (.outOfBounds (max (s.getReg .ESP - 4#32).toNat s.mem.size)) := by
  simp only [push32, getReg_setReg_self, setReg_mem, memWriteU32_out h, except_bind_error]

theorem push32_dataStep {s t : State} {v : Word} (h : push32 s v = .ok t) : DataStep s t := by
  obtain ⟨hb, rfl⟩ := push32_ok h
  exact ⟨rfl, rfl, rfl, rfl, rfl, fun hw => putDword_wf hw hb v⟩

theorem push32_error {s : State} {v : Word} {r : FaultReason} (h : push32 s v = .error r) : ¬ Defensive r := by
  by_cases hb : (s.getReg .ESP - 4#32).toNat + 3 < s.mem.size
  · rw [push32_in v hb] at h; cases h
  · rw [push32_out v (by omega)] at h
    cases h; exact id

/-- Everything `Pop32` can do when it completes (R65). -/
theorem pop32_ok {s t : State} {v : Word} (h : pop32 s = .ok (v, t)) :
    memReadU32 s.mem (s.getReg .ESP) = .ok v ∧ t = s.setReg .ESP (s.getReg .ESP + 4#32) := by
  unfold pop32 at h
  obtain ⟨w, hw, ht⟩ := except_bind_eq_ok.mp h
  cases ht
  exact ⟨hw, rfl⟩

theorem pop32_in {s : State} {v : Word} (h : memReadU32 s.mem (s.getReg .ESP) = .ok v) :
    pop32 s = .ok (v, s.setReg .ESP (s.getReg .ESP + 4#32)) := by
  simp only [pop32, h, except_bind_ok, except_pure]

theorem pop32_out {s : State} (h : s.mem.size ≤ (s.getReg .ESP).toNat + 3) :
    pop32 s = .error (.outOfBounds (max (s.getReg .ESP).toNat s.mem.size)) := by
  simp only [pop32, memReadU32_out h, except_bind_error]

theorem pop32_dataStep {s t : State} {v : Word} (h : pop32 s = .ok (v, t)) : DataStep s t := by
  obtain ⟨-, rfl⟩ := pop32_ok h
  exact setReg_dataStep s _ _

theorem pop32_error {s : State} {r : FaultReason} (h : pop32 s = .error r) : ¬ Defensive r := by
  unfold pop32 at h
  rcases except_bind_eq_error.mp h with h | ⟨v, -, h⟩
  · rw [(memReadU32_error h).2]; exact id
  · cases h

/-! ## Operands -/

/-- `EffectiveAddress` of a memory form: never a defensive fault (R54, R91). -/
theorem effectiveAddress_error {x : Regs} {d : Descriptor} {r : FaultReason} (hm : d.mode ≠ 3#2)
    (h : effectiveAddress x d = .error r) : d.rm = 4#3 ∧ r = .unsupportedSIB (d.sib.getD 0#8) := by
  unfold effectiveAddress at h
  rw [if_neg hm] at h
  split at h
  · next h4 => exact ⟨h4, (Except.error.inj h).symm⟩
  · split at h
    · cases h
    · split at h <;> simp at h

theorem effectiveAddress_sib {x : Regs} {d : Descriptor} (hm : d.mode ≠ 3#2) (h4 : d.rm = 4#3) :
    effectiveAddress x d = .error (.unsupportedSIB (d.sib.getD 0#8)) := by
  unfold effectiveAddress
  rw [if_neg hm, if_pos h4]

theorem effectiveAddress_ok_mode {x : Regs} {d : Descriptor} {a : Word} (h : effectiveAddress x d = .ok a) :
    d.mode ≠ 3#2 := by
  intro h3
  unfold effectiveAddress at h
  rw [if_pos h3] at h
  cases h

theorem readOperand32_reg {s : State} {d : Descriptor} (h : d.mode = 3#2) :
    readOperand32 s d = .ok (s.getReg (Reg.ofField d.rm)) := by
  unfold readOperand32
  rw [if_pos h, readReg_field]; rfl

theorem readOperand32_mem {s : State} {d : Descriptor} {a : Word} (h : effectiveAddress s.regs d = .ok a) :
    readOperand32 s d = memReadU32 s.mem a := by
  unfold readOperand32
  rw [if_neg (effectiveAddress_ok_mode h), h, except_bind_ok]

theorem readOperand32_error {s : State} {d : Descriptor} {r : FaultReason} (h : readOperand32 s d = .error r) :
    ¬ Defensive r := by
  unfold readOperand32 at h
  split at h
  · simp at h
  · next hm =>
    rcases except_bind_eq_error.mp h with h | ⟨a, -, h⟩
    · rw [(effectiveAddress_error hm h).2]; exact id
    · rw [(memReadU32_error h).2]; exact id

theorem writeOperand32_reg {s : State} {d : Descriptor} (v : Word) (h : d.mode = 3#2) :
    writeOperand32 s d v = .ok (s.setReg (Reg.ofField d.rm) v) := by
  unfold writeOperand32
  rw [if_pos h, writeReg_field]; rfl

theorem writeOperand32_mem {s : State} {d : Descriptor} {a : Word} (v : Word)
    (h : effectiveAddress s.regs d = .ok a) (hb : a.toNat + 3 < s.mem.size) :
    writeOperand32 s d v = .ok (s.setMem (putDword s.mem a.toNat v)) := by
  unfold writeOperand32
  rw [if_neg (effectiveAddress_ok_mode h), h, except_bind_ok, memWriteU32_in hb]; rfl

theorem writeOperand32_mem_out {s : State} {d : Descriptor} {a : Word} (v : Word)
    (h : effectiveAddress s.regs d = .ok a) (hb : s.mem.size ≤ a.toNat + 3) :
    writeOperand32 s d v = .error (.outOfBounds (max a.toNat s.mem.size)) := by
  unfold writeOperand32
  rw [if_neg (effectiveAddress_ok_mode h), h, except_bind_ok, memWriteU32_out hb]; rfl

/-- Everything `WriteOperand32` can do when it completes (R56). -/
theorem writeOperand32_ok {s t : State} {d : Descriptor} {v : Word} (h : writeOperand32 s d v = .ok t) :
    (d.mode = 3#2 ∧ t = s.setReg (Reg.ofField d.rm) v) ∨
      (∃ a, effectiveAddress s.regs d = .ok a ∧ a.toNat + 3 < s.mem.size ∧
        t = s.setMem (putDword s.mem a.toNat v)) := by
  by_cases hm : d.mode = 3#2
  · rw [writeOperand32_reg v hm] at h
    exact .inl ⟨hm, (Except.ok.inj h).symm⟩
  · refine .inr ?_
    unfold writeOperand32 at h
    rw [if_neg hm] at h
    obtain ⟨a, ha, h⟩ := except_bind_eq_ok.mp h
    obtain ⟨m, hmw, h⟩ := except_bind_eq_ok.mp h
    obtain ⟨hb, rfl⟩ := memWriteU32_ok hmw
    exact ⟨a, ha, hb, (Except.ok.inj h).symm⟩

theorem writeOperand32_dataStep {s t : State} {d : Descriptor} {v : Word} (h : writeOperand32 s d v = .ok t) :
    DataStep s t := by
  rcases writeOperand32_ok h with ⟨-, rfl⟩ | ⟨a, -, hb, rfl⟩
  · exact setReg_dataStep s _ _
  · exact ⟨rfl, rfl, rfl, rfl, rfl, fun hw => putDword_wf hw hb v⟩

theorem writeOperand32_error {s : State} {d : Descriptor} {v : Word} {r : FaultReason}
    (h : writeOperand32 s d v = .error r) : ¬ Defensive r := by
  unfold writeOperand32 at h
  split at h
  · simp at h
  · next hm =>
    rcases except_bind_eq_error.mp h with h | ⟨a, -, h⟩
    · rw [(effectiveAddress_error hm h).2]; exact id
    · rcases except_bind_eq_error.mp h with h | ⟨m, -, h⟩
      · rw [(memWriteU32_error h).2]; exact id
      · cases h

/-- Both operand accessors fault alike on a SIB form (R54). -/
theorem readOperand32_sib {s : State} {d : Descriptor} (hm : d.mode ≠ 3#2) (h4 : d.rm = 4#3) :
    readOperand32 s d = .error (.unsupportedSIB (d.sib.getD 0#8)) := by
  unfold readOperand32
  rw [if_neg hm, effectiveAddress_sib hm h4, except_bind_error]

theorem writeOperand32_sib {s : State} {d : Descriptor} (v : Word) (hm : d.mode ≠ 3#2) (h4 : d.rm = 4#3) :
    writeOperand32 s d v = .error (.unsupportedSIB (d.sib.getD 0#8)) := by
  unfold writeOperand32
  rw [if_neg hm, effectiveAddress_sib hm h4, except_bind_error]

@[simp] theorem regOperand_eq (s : State) (d : Descriptor) :
    regOperand s d = .ok (s.getReg (Reg.ofField d.regOrOpcode)) := by
  unfold regOperand
  rw [readReg_field]; rfl

@[simp] theorem setRegOperand_eq (s : State) (d : Descriptor) (v : Word) :
    setRegOperand s d v = .ok (s.setReg (Reg.ofField d.regOrOpcode) v) := by
  unfold setRegOperand
  rw [writeReg_field]; rfl

/-- An operand reads no EIP and writes none: moving EIP first changes nothing else. -/
@[simp] theorem readOperand32_advance (s : State) (n : Nat) (d : Descriptor) :
    readOperand32 (s.advance n) d = readOperand32 s d := rfl

@[simp] theorem readOperand32_emit (s : State) (op : Byte) (d : Descriptor) :
    readOperand32 (s.emit op) d = readOperand32 s d := rfl

end Sys2Proof.Machine
end

