-- ==== Sys2Proof/Laws/Handlers.lean ====
section
/-! SUPPORT. What every handler can do, once: how `complete` ends it, and what `exec` can answer at all. -/

namespace Sys2Proof.Machine

theorem complete_next_iff {s t : State} {x : Except FaultReason State} : complete s x = .next t ↔ x = .ok t := by
  cases x <;> simp [complete, raise]

theorem complete_fault_iff {s : State} {x : Except FaultReason State} {f : Fault} :
    complete s x = .fault f ↔ ∃ r, x = .error r ∧ f = .faulted r s.trace := by
  cases x <;> simp [complete, raise, eq_comm]

@[simp] theorem complete_ok (s t : State) : complete s (.ok t) = .next t := rfl

@[simp] theorem complete_error (s : State) (r : FaultReason) : complete s (.error r) = .fault (.faulted r s.trace) := rfl

theorem complete_not_refused (s : State) (x : Except FaultReason State) (r : Refusal) : complete s x ≠ .refused r := by
  cases x <;> simp [complete, raise]

/-- A read-modify-write completes as its one write does (R59). -/
theorem modifyOperand32_ok {s t : State} {d : Descriptor} {f : Word → Word} (h : modifyOperand32 s d f = .ok t) :
    ∃ a, readOperand32 s d = .ok a ∧ writeOperand32 s d (f a) = .ok t := except_bind_eq_ok.mp h

theorem modifyOperand32_error {s : State} {d : Descriptor} {f : Word → Word} {r : FaultReason}
    (h : modifyOperand32 s d f = .error r) : ¬ Defensive r := by
  rcases except_bind_eq_error.mp h with h | ⟨a, -, h⟩
  · exact readOperand32_error h
  · exact writeOperand32_error h

/-- What `t` shares with `s` after any handler that leaves the status alone: FLAGS, status, trace and the size of
memory; and the canonical form of memory is kept. -/
structure HandlerStep (s t : State) : Prop where
  flags  : t.flags = s.flags
  status : t.status = s.status
  trace  : t.trace = s.trace
  size   : t.mem.size = s.mem.size
  wf     : s.mem.wf → t.mem.wf

theorem DataStep.handler {s t : State} (h : DataStep s t) : HandlerStep s t :=
  ⟨h.flags, h.status, h.trace, h.size, h.wf⟩

theorem HandlerStep.setEip {s t : State} (h : HandlerStep s t) (w : Word) : HandlerStep s (t.setEip w) :=
  ⟨h.flags, h.status, h.trace, h.size, h.wf⟩

theorem HandlerStep.advance {s t : State} (h : HandlerStep s t) (n : Nat) : HandlerStep s (t.advance n) :=
  h.setEip _

theorem HandlerStep.ofAdvance {s t : State} {n : Nat} (h : HandlerStep (s.advance n) t) : HandlerStep s t :=
  ⟨h.flags, h.status, h.trace, h.size, h.wf⟩

/-- What a handler's result says: it completed from `s` as a handler may, or it met a fault that an instruction can
reach. -/
def HandlerResult (s : State) : Except FaultReason State → Prop
  | .ok t => HandlerStep s t
  | .error r => ¬ Defensive r

theorem handlerResult_of {s : State} {x : Except FaultReason State}
    (hok : ∀ t, x = .ok t → HandlerStep s t) (herr : ∀ r, x = .error r → ¬ Defensive r) : HandlerResult s x := by
  cases x with
  | ok t => exact hok t rfl
  | error r => exact herr r rfl

theorem push32_advance_result {s s1 : State} (v : Word) (g : State → State) (hs : DataStep s s1)
    (hg : ∀ t, HandlerStep s t → HandlerStep s (g t)) :
    HandlerResult s (push32 s1 v >>= fun t => pure (g t)) := by
  refine handlerResult_of (fun t h => ?_) (fun r h => ?_)
  · obtain ⟨u, hu, ht⟩ := except_bind_eq_ok.mp h
    cases ht
    exact hg u (hs.trans (push32_dataStep hu)).handler
  · rcases except_bind_eq_error.mp h with h | ⟨u, -, h⟩
    · exact push32_error h
    · cases h

theorem writeOperand32_result {s : State} (n : Nat) (d : Descriptor) (v : Word) :
    HandlerResult s (writeOperand32 (s.advance n) d v) :=
  handlerResult_of (fun _ h => (writeOperand32_dataStep h).handler.ofAdvance) (fun _ h => writeOperand32_error h)

theorem modifyOperand32_result {s : State} (n : Nat) (d : Descriptor) (f : Word → Word) :
    HandlerResult s (modifyOperand32 (s.advance n) d f) := by
  refine handlerResult_of (fun t h => ?_) (fun r h => modifyOperand32_error h)
  obtain ⟨a, -, hw⟩ := modifyOperand32_ok h
  exact (writeOperand32_dataStep hw).handler.ofAdvance

/-- What an outcome of a meaning can be: a next state that a handler may leave, or the halt of an unhandled byte, or a
fault with the trace of its start and no defensive reason. -/
inductive ExecResult (i : Instr) (s : State) : Host.Outcome State Fault Refusal → Prop where
  | completed {t : State} (h : HandlerStep s t) : ExecResult i s (.next t)
  | halted (op : Byte) (h : i = .noHandler op) : ExecResult i s (.next (s.halt (.unknownOpcode op)))
  | faulted {r : FaultReason} (h : ¬ Defensive r) : ExecResult i s (.fault (.faulted r s.trace))

theorem HandlerResult.exec {i : Instr} {s : State} {x : Except FaultReason State} (h : HandlerResult s x) :
    ExecResult i s (complete s x) := by
  cases x with
  | ok t => exact .completed h
  | error r => exact .faulted h

/-- Everything `exec` can answer, for every instruction at every state. -/
theorem exec_result (i : Instr) (s : State) : ExecResult i s (exec i s) := by
  cases i with
  | addRm32R32 d =>
    refine HandlerResult.exec (handlerResult_of (fun t h => ?_) (fun r h => ?_))
    · obtain ⟨a, -, h⟩ := except_bind_eq_ok.mp h
      obtain ⟨b, -, h⟩ := except_bind_eq_ok.mp h
      exact (writeOperand32_dataStep h).handler.ofAdvance
    · rcases except_bind_eq_error.mp h with h | ⟨a, -, h⟩
      · exact readOperand32_error h
      · rw [regOperand_eq, except_bind_ok] at h
        exact writeOperand32_error h
  | pushR32 r =>
    refine HandlerResult.exec ?_
    rw [readReg_field, except_bind_ok]
    exact push32_advance_result _ (fun t => t.advance 1) (DataStep.refl s) (fun t h => h.advance 1)
  | popR32 r =>
    refine HandlerResult.exec (handlerResult_of (fun t h => ?_) (fun q h => ?_))
    · obtain ⟨⟨v, u⟩, hp, h⟩ := except_bind_eq_ok.mp h
      dsimp only at h
      rw [writeReg_field, except_bind_ok] at h
      cases h
      exact ((pop32_dataStep hp).trans (setRegs_dataStep u _)).handler.advance 1
    · rcases except_bind_eq_error.mp h with h | ⟨⟨v, u⟩, -, h⟩
      · exact pop32_error h
      · dsimp only at h
        rw [writeReg_field, except_bind_ok] at h
        cases h
  | pushImm32 imm =>
    exact HandlerResult.exec (push32_advance_result _ (fun t => t.advance 5) (DataStep.refl s) (fun t h => h.advance 5))
  | pushImm8 imm =>
    exact HandlerResult.exec (push32_advance_result _ (fun t => t.advance 2) (DataStep.refl s) (fun t h => h.advance 2))
  | addRm32Imm8 d imm => exact (modifyOperand32_result _ d _).exec
  | subRm32Imm8 d imm => exact (modifyOperand32_result _ d _).exec
  | incRm32 d => exact (modifyOperand32_result _ d _).exec
  | movRm32R32 d =>
    refine HandlerResult.exec ?_
    dsimp only
    rw [regOperand_eq, except_bind_ok]
    exact writeOperand32_result _ d _
  | movR32Rm32 d =>
    refine HandlerResult.exec (handlerResult_of (fun t h => ?_) (fun r h => ?_))
    · obtain ⟨a, -, h⟩ := except_bind_eq_ok.mp h
      rw [setRegOperand_eq] at h
      cases h
      exact (setReg_dataStep _ _ _).handler.ofAdvance
    · rcases except_bind_eq_error.mp h with h | ⟨a, -, h⟩
      · exact readOperand32_error h
      · rw [setRegOperand_eq] at h
        cases h
  | movR32Imm32 r imm =>
    refine HandlerResult.exec ?_
    rw [writeReg_field, except_bind_ok]
    exact (setRegs_dataStep s _).handler.advance 5
  | movRm32Imm32 d imm => exact (writeOperand32_result _ d imm).exec
  | ret =>
    refine HandlerResult.exec (handlerResult_of (fun t h => ?_) (fun r h => ?_))
    · obtain ⟨⟨v, u⟩, hp, h⟩ := except_bind_eq_ok.mp h
      cases h
      exact (pop32_dataStep hp).handler.setEip v
    · rcases except_bind_eq_error.mp h with h | ⟨⟨v, u⟩, -, h⟩
      · exact pop32_error h
      · cases h
  | leave =>
    refine HandlerResult.exec (handlerResult_of (fun t h => ?_) (fun r h => ?_))
    · obtain ⟨⟨v, u⟩, hp, h⟩ := except_bind_eq_ok.mp h
      cases h
      exact (((setReg_dataStep s _ _).trans (pop32_dataStep hp)).trans (setReg_dataStep u _ _)).handler.advance 1
    · rcases except_bind_eq_error.mp h with h | ⟨⟨v, u⟩, -, h⟩
      · exact pop32_error h
      · cases h
  | callRel32 rel =>
    exact HandlerResult.exec (push32_advance_result _ (fun t => t.setEip _) (DataStep.refl s) (fun t h => h.setEip _))
  | jmpRel32 rel => exact .completed ((DataStep.refl s).handler.setEip _)
  | jmpRel8 rel => exact .completed ((DataStep.refl s).handler.setEip _)
  | group83Ext1 d => exact .faulted id
  | group83Ext2 d => exact .faulted id
  | group83Ext3 d => exact .faulted id
  | group83Ext4 d => exact .faulted id
  | group83Ext6 d => exact .faulted id
  | group83Ext7 d => exact .faulted id
  | groupFFExt1 d => exact .faulted id
  | groupFFExt2 d => exact .faulted id
  | groupFFExt3 d => exact .faulted id
  | groupFFExt4 d => exact .faulted id
  | groupFFExt5 d => exact .faulted id
  | groupFFExt6 d => exact .faulted id
  | groupFFExt7 d => exact .faulted id
  | noHandler op => exact .halted op rfl

/-- An instruction with an r/m destination stores to the effective address, and to nothing where there is none. -/
theorem storeAddress_rm {i : Instr} {d : Descriptor} (h : rmDestination i = some d) (s : State) :
    storeAddress i s = (effectiveAddress s.regs d).toOption := by
  cases i <;> first | (cases h; rfl) | cases h

end Sys2Proof.Machine
end

