-- ==== Sys2Proof/Laws/PerInstr.lean ====
section
/-! SUPPORT. Per instruction: the encoder writes as many bytes as the instruction's length says (30_encoding.md R38). -/

namespace Sys2Proof.Laws.EncodedLength

/-- The encoding has the length of R38, R44. -/
def Statement (i : Instr) : Prop := (encode i).length = i.length

theorem addRm32R32 (d : Descriptor) : Statement (.addRm32R32 d) := length_opcode_modrm _ d

theorem pushR32 (r : Field3) : Statement (.pushR32 r) := rfl

theorem popR32 (r : Field3) : Statement (.popR32 r) := rfl

theorem pushImm32 (imm : Word) : Statement (.pushImm32 imm) := rfl

theorem pushImm8 (imm : Byte) : Statement (.pushImm8 imm) := rfl

theorem addRm32Imm8 (d : Descriptor) (imm : Byte) : Statement (.addRm32Imm8 d imm) := length_opcode_modrm_append _ d _

theorem subRm32Imm8 (d : Descriptor) (imm : Byte) : Statement (.subRm32Imm8 d imm) := length_opcode_modrm_append _ d _

theorem group83Ext1 (d : Descriptor) : Statement (.group83Ext1 d) := length_opcode_modrm _ d

theorem group83Ext2 (d : Descriptor) : Statement (.group83Ext2 d) := length_opcode_modrm _ d

theorem group83Ext3 (d : Descriptor) : Statement (.group83Ext3 d) := length_opcode_modrm _ d

theorem group83Ext4 (d : Descriptor) : Statement (.group83Ext4 d) := length_opcode_modrm _ d

theorem group83Ext6 (d : Descriptor) : Statement (.group83Ext6 d) := length_opcode_modrm _ d

theorem group83Ext7 (d : Descriptor) : Statement (.group83Ext7 d) := length_opcode_modrm _ d

theorem movRm32R32 (d : Descriptor) : Statement (.movRm32R32 d) := length_opcode_modrm _ d

theorem movR32Rm32 (d : Descriptor) : Statement (.movR32Rm32 d) := length_opcode_modrm _ d

theorem movR32Imm32 (r : Field3) (imm : Word) : Statement (.movR32Imm32 r imm) := rfl

theorem ret : Statement .ret := rfl

theorem movRm32Imm32 (d : Descriptor) (imm : Word) : Statement (.movRm32Imm32 d imm) := length_opcode_modrm_append _ d _

theorem leave : Statement .leave := rfl

theorem callRel32 (rel : Word) : Statement (.callRel32 rel) := rfl

theorem jmpRel32 (rel : Word) : Statement (.jmpRel32 rel) := rfl

theorem jmpRel8 (rel : Byte) : Statement (.jmpRel8 rel) := rfl

theorem incRm32 (d : Descriptor) : Statement (.incRm32 d) := length_opcode_modrm _ d

theorem groupFFExt1 (d : Descriptor) : Statement (.groupFFExt1 d) := length_opcode_modrm _ d

theorem groupFFExt2 (d : Descriptor) : Statement (.groupFFExt2 d) := length_opcode_modrm _ d

theorem groupFFExt3 (d : Descriptor) : Statement (.groupFFExt3 d) := length_opcode_modrm _ d

theorem groupFFExt4 (d : Descriptor) : Statement (.groupFFExt4 d) := length_opcode_modrm _ d

theorem groupFFExt5 (d : Descriptor) : Statement (.groupFFExt5 d) := length_opcode_modrm _ d

theorem groupFFExt6 (d : Descriptor) : Statement (.groupFFExt6 d) := length_opcode_modrm _ d

theorem groupFFExt7 (d : Descriptor) : Statement (.groupFFExt7 d) := length_opcode_modrm _ d

theorem noHandler (op : Byte) : Statement (.noHandler op) := rfl

end Sys2Proof.Laws.EncodedLength
end

