-- ==== Sys2Proof/Laws/Step.lean ====
section
/-! SUPPORT. What a step can do, once (45_execution_loop.md R84 to R88): the post-instruction checks, the inversion of
`step`, and the machine's fetch against the decoder on a list of bytes. -/

namespace Sys2Proof.Machine

/-! ## The post-instruction checks (R87) -/

@[simp] theorem postChecks_regs (t : State) : (postChecks t).regs = t.regs := by
  unfold postChecks; repeat' split
  all_goals rfl

@[simp] theorem postChecks_eip (t : State) : (postChecks t).eip = t.eip := by
  unfold postChecks; repeat' split
  all_goals rfl

@[simp] theorem postChecks_flags (t : State) : (postChecks t).flags = t.flags := by
  unfold postChecks; repeat' split
  all_goals rfl

@[simp] theorem postChecks_mem (t : State) : (postChecks t).mem = t.mem := by
  unfold postChecks; repeat' split
  all_goals rfl

@[simp] theorem postChecks_trace (t : State) : (postChecks t).trace = t.trace := by
  unfold postChecks; repeat' split
  all_goals rfl

/-- A state that is not RUNNING is not tested. -/
theorem postChecks_of_not_running {t : State} (h : t.status ≠ .running) : postChecks t = t := if_neg h

/-- A RUNNING state that was tested fits its status. -/
theorem postChecks_fits {t : State} (h : t.status = .running) : StatusFits (postChecks t) := by
  unfold postChecks
  rw [if_pos h]
  split
  · next h0 => exact h0
  · next h0 =>
    split
    · next hb => exact hb
    · next hb =>
      unfold StatusFits
      rw [h]
      exact ⟨h0, BitVec.not_lt.mp hb⟩

/-! ## The step, taken apart -/

theorem step_of_running {s : State} (h : s.status = .running) : step s = runningStep s := by
  unfold step; rw [h]

theorem runningStep_fetched {s : State} {op : Byte} (h : fetchU8 s 0 = .ok op) :
    runningStep s = runHandler (s.emit op) := by
  unfold runningStep; rw [h]

theorem runHandler_fetched {s : State} {i : Instr} (h : fetchInstr s = .ok i) :
    runHandler s = afterHandler (exec i s) := by
  unfold runHandler; rw [h]

theorem runHandler_error {s : State} {r : FaultReason} (h : fetchInstr s = .error r) :
    runHandler s = .fault (.faulted r s.trace) := by
  unfold runHandler raise; rw [h]

theorem afterHandler_next {o : Host.Outcome State Fault Refusal} {u : State} (h : afterHandler o = .next u) :
    ∃ t, o = .next t ∧ u = postChecks t := by
  cases o with
  | next t => exact ⟨t, rfl, (Host.Outcome.next.inj h).symm⟩
  | fault f => cases h
  | refused r => cases h

/-- Everything a step can do when it answers a next state. -/
theorem step_next {s u : State} (h : step s = .next u) :
    s.status = .running ∧ ∃ op i t, fetchU8 s 0 = .ok op ∧ fetchInstr (s.emit op) = .ok i ∧
      exec i (s.emit op) = .next t ∧ u = postChecks t := by
  unfold step at h
  split at h
  · next hr =>
    refine ⟨hr, ?_⟩
    unfold runningStep at h
    split at h
    · cases h
    · next op hop =>
      unfold runHandler at h
      split at h
      · cases h
      · next i hi =>
        obtain ⟨t, ht, hu⟩ := afterHandler_next h
        exact ⟨op, i, t, hop, hi, ht, hu⟩
  · cases h
  · cases h

/-- Everything a step can do when it faults. -/
theorem step_fault {s : State} {f : Fault} (h : step s = .fault f) :
    s.status = .running ∧
      ((∃ r, fetchU8 s 0 = .error r ∧ f = .faulted r s.trace) ∨
        (∃ op r, fetchU8 s 0 = .ok op ∧ fetchInstr (s.emit op) = .error r ∧ f = .faulted r (s.emit op).trace) ∨
        (∃ op i, fetchU8 s 0 = .ok op ∧ fetchInstr (s.emit op) = .ok i ∧ exec i (s.emit op) = .fault f)) := by
  unfold step at h
  split at h
  · next hr =>
    refine ⟨hr, ?_⟩
    unfold runningStep at h
    split at h
    · next r hr' =>
      refine .inl ⟨r, hr', ?_⟩
      cases h; rfl
    · next op hop =>
      unfold runHandler at h
      split at h
      · next r hi =>
        refine .inr (.inl ⟨op, r, hop, hi, ?_⟩)
        cases h; rfl
      · next i hi =>
        refine .inr (.inr ⟨op, i, hop, hi, ?_⟩)
        cases he : exec i (s.emit op) with
        | next t => rw [he] at h; cases h
        | fault f' => rw [he] at h; cases h; rfl
        | refused r => rw [he] at h; cases h
  · cases h
  · cases h

/-! ## The fetch -/

theorem fetchU8_emit (s : State) (op : Byte) (k : Nat) : fetchU8 (s.emit op) k = fetchU8 s k := rfl

/-- The trace is no part of what is fetched. -/
theorem fetchInstr_emit (s : State) (op : Byte) : fetchInstr (s.emit op) = fetchInstr s := rfl

theorem fetchAddress_zero (s : State) : fetchAddress s 0 = s.eip := by
  simp [fetchAddress]

/-- The opcode byte is the byte at EIP. -/
theorem fetchU8_zero (s : State) : fetchU8 s 0 = memReadU8 s.mem s.eip.toNat := by
  unfold fetchU8; rw [fetchAddress_zero]

/-- Below 2^32 the address of an instruction byte is the plain sum. -/
theorem fetchAddress_toNat {s : State} {k : Nat} (h : s.eip.toNat + k < 2 ^ 32) :
    (fetchAddress s k).toNat = s.eip.toNat + k := by
  unfold fetchAddress
  rw [BitVec.toNat_add, BitVec.toNat_ofNat, Nat.add_mod_mod, Nat.mod_eq_of_lt h]

/-- A fetched dword is its four bytes. -/
theorem memReadU32_bytes {m : Memory} {a : Word} {b0 b1 b2 b3 : Byte} (h0 : memReadU8 m a.toNat = .ok b0)
    (h1 : memReadU8 m (a.toNat + 1) = .ok b1) (h2 : memReadU8 m (a.toNat + 2) = .ok b2)
    (h3 : memReadU8 m (a.toNat + 3) = .ok b3) : memReadU32 m a = .ok (le32 b0 b1 b2 b3) := by
  unfold memReadU32
  rw [h0, h1, h2, h3]; rfl

/-- A fetch reads the dword that a store left, and each of its bytes, in any state that still holds the four bytes
(20_memory.md R31, R35). -/
theorem fetch_sees_putDword {m : Memory} {a v : Word} (hb : a.toNat + 3 < m.size) (u : State) (k : Nat)
    (hu : ∀ j, j < 4 → memReadU8 u.mem (a.toNat + j) = memReadU8 (putDword m a.toNat v) (a.toNat + j)) :
    (fetchAddress u k = a → fetchU32 u k = .ok v) ∧
    (∀ j, j < 4 → (fetchAddress u k).toNat = a.toNat + j → fetchU8 u k = .ok (byteOf v j)) := by
  refine ⟨fun h => ?_, fun j hj h => ?_⟩
  · have h0 := hu 0 (by omega)
    rw [Nat.add_zero] at h0
    rw [fetchU32, h, ← memReadU32_putDword m a v hb]
    simp only [memReadU32, h0, hu 1 (by omega), hu 2 (by omega), hu 3 (by omega)]
  · rw [fetchU8, h, hu j hj, memReadU8_in (by simp only [putDword_size]; omega), get_putDword_byte _ _ _ _ hj]

theorem holdsAt_nil (m : Memory) (a : Nat) : HoldsAt m a [] := fun k b h => by simp at h

/-- Bytes stand in memory one after the other. -/
theorem holdsAt_cons (m : Memory) (a : Nat) (b : Byte) (bs : List Byte) :
    HoldsAt m a (b :: bs) ↔ memReadU8 m a = .ok b ∧ HoldsAt m (a + 1) bs := by
  constructor
  · intro h
    refine ⟨h 0 b rfl, fun k c hc => ?_⟩
    have := h (k + 1) c hc
    rwa [← Nat.add_assoc, Nat.add_right_comm] at this
  · rintro ⟨h0, hs⟩ k c hc
    cases k with
    | zero => cases hc; exact h0
    | succ k =>
      have := hs k c hc
      rwa [Nat.add_right_comm, Nat.add_assoc] at this

/-- Where memory holds a list's bytes at EIP, the machine's fetch agrees with the list on them. -/
theorem fetchSource_agrees {s : State} {bs : List Byte} {n : Nat} (hz : s.mem.size ≤ Config.addressSpace)
    (h : HoldsAt s.mem s.eip.toNat (bs.take n)) : AgreesOn (listSource bs) (fetchSource s) n := by
  have byte : ∀ k b, k < n → bs[k]? = some b →
      s.eip.toNat + k < 2 ^ 32 ∧ memReadU8 s.mem (s.eip.toNat + k) = .ok b := by
    intro k b hk hb
    have hr := h k b (by rw [List.getElem?_take_of_lt hk]; exact hb)
    refine ⟨?_, hr⟩
    have := (memReadU8_ok_iff _ _ _).mp hr
    have : Config.addressSpace = 2 ^ 32 := rfl
    omega
  refine ⟨fun k b hk hb => ?_, fun k w hk hw => ?_⟩
  · obtain ⟨hlt, hr⟩ := byte k b hk ((listU8_ok_iff bs k b).mp hb)
    show memReadU8 s.mem (fetchAddress s k).toNat = .ok b
    rw [fetchAddress_toNat hlt, hr]
  · obtain ⟨b0, b1, b2, b3, h0, h1, h2, h3, rfl⟩ := (listU32_ok_iff bs k w).mp hw
    obtain ⟨hlt, r0⟩ := byte k b0 (by omega) h0
    obtain ⟨-, r1⟩ := byte (k + 1) b1 (by omega) h1
    obtain ⟨-, r2⟩ := byte (k + 2) b2 (by omega) h2
    obtain ⟨-, r3⟩ := byte (k + 3) b3 (by omega) h3
    show memReadU32 s.mem (fetchAddress s k) = .ok (le32 b0 b1 b2 b3)
    refine memReadU32_bytes ?_ ?_ ?_ ?_ <;> rw [fetchAddress_toNat hlt]
    · exact r0
    · exact r1
    · exact r2
    · exact r3

/-- Where memory ends at byte `n` of a list's bytes at EIP, the machine's fetch is the list cut off there. -/
theorem fetchSource_cuts {s : State} {bs : List Byte} {n : Nat} (hz : s.mem.size ≤ s.eip.toNat + n)
    (hlt : s.eip.toNat + n < 2 ^ 32) (h : HoldsAt s.mem s.eip.toNat (bs.take n)) (hbelow : ∀ j, j < n → s.eip.toNat + j < s.mem.size) :
    CutsAt (listSource bs) (fetchSource s) n (.outOfBounds (s.eip.toNat + n)) := by
  by_cases hn : n = 0
  · subst hn
    refine ⟨⟨fun k b hk => by omega, fun k w hk => by omega⟩, ?_, fun k hk _ => ?_⟩
    · show memReadU8 s.mem (fetchAddress s 0).toNat = _
      rw [fetchAddress_toNat (by omega), memReadU8_out (by omega)]
    · obtain rfl : k = 0 := by omega
      show memReadU32 s.mem (fetchAddress s 0) = _
      rw [memReadU32_out (by rw [fetchAddress_toNat (by omega)]; omega), fetchAddress_toNat (by omega)]
      congr 2; omega
  refine ⟨fetchSource_agrees (by show _ ≤ 2 ^ 32; omega) h, ?_, fun k hk hk3 => ?_⟩
  · show memReadU8 s.mem (fetchAddress s n).toNat = _
    rw [fetchAddress_toNat hlt, memReadU8_out hz]
  · show memReadU32 s.mem (fetchAddress s k) = _
    have ha : (fetchAddress s k).toNat = s.eip.toNat + k := fetchAddress_toNat (by omega)
    have below : ∀ j, j < n → s.eip.toNat + j < s.mem.size := hbelow
    rw [memReadU32_out (by rw [ha]; omega), ha]
    congr 2
    by_cases hkn : k = n
    · omega
    · have := below (n - 1) (by omega)
      omega

/-- The fault of the operand read before an 83 immediate is the fault of the handler itself (R74, R75). -/
theorem exec_operandBeforeImm {i : Instr} {d : Descriptor} {s : State} {r : FaultReason}
    (hi : operandBeforeImm i = some d) (h : readOperand32 s d = .error r) : exec i s = .fault (.faulted r s.trace) := by
  cases i <;> simp only [operandBeforeImm, Option.some.injEq, reduceCtorEq] at hi
  all_goals
    subst hi
    simp only [exec, execAddRm32Imm8, execSubRm32Imm8, modifyOperand32, readOperand32_advance, h, except_bind_error,
      complete_error]

theorem operandReadFault_error_iff {s : State} {d : Descriptor} {r : FaultReason} :
    operandReadFault s d = .error r ↔ readOperand32 s d = .error r := by
  unfold operandReadFault
  cases readOperand32 s d <;> simp

theorem operandReadFault_ok_iff {s : State} {d : Descriptor} :
    operandReadFault s d = .ok () ↔ ∃ v, readOperand32 s d = .ok v := by
  unfold operandReadFault
  cases readOperand32 s d <;> simp

/-- A step at bytes that decode runs the decoded instruction (R84, R86). -/
theorem runHandler_decoded {s : State} {bs : List Byte} {i : Instr} (hz : s.mem.size ≤ Config.addressSpace)
    (hd : decode bs = .ok i) (h : HoldsAt s.mem s.eip.toNat (bs.take i.length)) :
    runHandler s = afterHandler (exec i s) := by
  rcases decodeFrom_agrees (fetchSource_agrees hz h) hd with hf | ⟨d, r, hi, hr, hf⟩
  · exact runHandler_fetched hf
  · rw [runHandler_error hf, exec_operandBeforeImm hi (operandReadFault_error_iff.mp hr)]
    rfl

end Sys2Proof.Machine
end

