-- ==== Sys2Proof/Tests/Slice0.lean ====
section
/-! SUPPORT. The model's own tests. Every expected value is from spec/95_test_vectors.md (the vector's name stands in the
comment) or written out from the encodings of spec/30_encoding.md. At the end: for every statement with hypotheses, a
witness that meets them. -/

namespace Sys2Proof.Tests

open Sys2Proof.Machine

/-! ## Small machines -/

/-- The reset state with other registers, bytes below the image, and code at 0x7C00 in an image of 16 bytes. -/
def machine (x : Regs) (data : List Host.Cell) (code : List Byte) : State :=
  { State.reset with regs := x, mem := { size := 0x7C10, cells := data ++ imageCells 0x7C00 code } }

/-- A dword in memory. -/
def dwordCells (a : Nat) (v : Word) : List Host.Cell := imageCells a (bytes32 v)

/-- The state after one step. -/
def after (s : State) : Option State :=
  match step s with
  | .next t => some t
  | .fault _ => none
  | .refused _ => none

/-- The fault of one step. -/
def faultAfter (s : State) : Option FaultReason :=
  match step s with
  | .next _ => none
  | .fault (.faulted reason _) => some reason
  | .refused _ => none

/-! ## WellFormed: an ill-formed term for each check -/

/-- The SIB byte is missing (mode 0, rm 4), or there is one without need (mode 3, rm 4). -/
theorem test_wf_refuses_sib :
    (Instr.addRm32R32 ⟨0#2, 0#3, 4#3, none, .absent⟩).wf = false ∧
    (Instr.movRm32R32 ⟨3#2, 0#3, 4#3, some 0x24#8, .absent⟩).wf = false := by decide

/-- Displacements of the wrong form: none in mode 1, disp8 in mode 2, none in mode 0 with rm 5, disp32 in mode 0. -/
theorem test_wf_refuses_disp :
    (Instr.movR32Rm32 ⟨1#2, 0#3, 5#3, none, .absent⟩).wf = false ∧
    (Instr.movR32Rm32 ⟨2#2, 0#3, 5#3, none, .disp8 0#8⟩).wf = false ∧
    (Instr.movRm32Imm32 ⟨0#2, 0#3, 5#3, none, .absent⟩ 0#32).wf = false ∧
    (Instr.movR32Rm32 ⟨0#2, 0#3, 0#3, none, .disp32 0#32⟩).wf = false := by decide

/-- A group row with the extension of another row. -/
theorem test_wf_refuses_extension :
    (Instr.addRm32Imm8 ⟨3#2, 5#3, 0#3, none, .absent⟩ 0#8).wf = false ∧
    (Instr.subRm32Imm8 ⟨3#2, 0#3, 0#3, none, .absent⟩ 0#8).wf = false ∧
    (Instr.group83Ext7 ⟨3#2, 6#3, 0#3, none, .absent⟩).wf = false ∧
    (Instr.incRm32 ⟨3#2, 1#3, 0#3, none, .absent⟩).wf = false ∧
    (Instr.groupFFExt6 ⟨3#2, 0#3, 0#3, none, .absent⟩).wf = false := by decide

/-- A byte that has a handler is no unhandled byte. -/
theorem test_wf_refuses_handled :
    (Instr.noHandler 0x83#8).wf = false ∧ (Instr.noHandler 0x0F#8).wf = true := by decide

/-! ## Decoding: a word for every constructor, bit by bit from 30_encoding.md R37 to R52 -/

/-- `89 /r`, `8B /r`, `B8+r`, `C7 /any`: ModRM bits `mode reg rm`. -/
theorem test_decode_data_transfer :
    decode [0b10001001#8, 0b11100101#8] = .ok (.movRm32R32 ⟨0b11#2, 0b100#3, 0b101#3, none, .absent⟩) ∧
    decode [0b10001011#8, 0b01000101#8, 0b11111100#8] =
      .ok (.movR32Rm32 ⟨0b01#2, 0b000#3, 0b101#3, none, .disp8 0xFC#8⟩) ∧
    decode [0b10111101#8, 0x78#8, 0x56#8, 0x34#8, 0x12#8] = .ok (.movR32Imm32 0b101#3 0x12345678#32) ∧
    decode [0b11000111#8, 0b10111100#8, 0x24#8, 1#8, 2#8, 3#8, 4#8, 0x0A#8, 0x0B#8, 0x0C#8, 0x0D#8] =
      .ok (.movRm32Imm32 ⟨0b10#2, 0b111#3, 0b100#3, some 0x24#8, .disp32 0x04030201#32⟩ 0x0D0C0B0A#32) := by decide

/-- `50+r`, `58+r`, `68`, `6A`, `C9`. -/
theorem test_decode_stack :
    decode [0b01010110#8] = .ok (.pushR32 0b110#3) ∧ decode [0b01011011#8] = .ok (.popR32 0b011#3) ∧
    decode [0b01101000#8, 0xEF#8, 0xBE#8, 0xAD#8, 0xDE#8] = .ok (.pushImm32 0xDEADBEEF#32) ∧
    decode [0b01101010#8, 0x80#8] = .ok (.pushImm8 0x80#8) ∧ decode [0b11001001#8] = .ok .leave := by decide

/-- `01 /r`, `83 /0`, `83 /5`, `FF /0`. -/
theorem test_decode_arithmetic :
    decode [0b00000001#8, 0b11001000#8] = .ok (.addRm32R32 ⟨0b11#2, 0b001#3, 0b000#3, none, .absent⟩) ∧
    decode [0b10000011#8, 0b01000101#8, 0xFC#8, 0x05#8] =
      .ok (.addRm32Imm8 ⟨0b01#2, 0b000#3, 0b101#3, none, .disp8 0xFC#8⟩ 0x05#8) ∧
    decode [0b10000011#8, 0b11101100#8, 0x08#8] =
      .ok (.subRm32Imm8 ⟨0b11#2, 0b101#3, 0b100#3, none, .absent⟩ 0x08#8) ∧
    decode [0b11111111#8, 0b00000101#8, 0x00#8, 0x70#8, 0x00#8, 0x00#8] =
      .ok (.incRm32 ⟨0b00#2, 0b000#3, 0b101#3, none, .disp32 0x00007000#32⟩) := by decide

/-- `E8`, `C3`, `EB`, `E9`. -/
theorem test_decode_control_transfer :
    decode [0b11101000#8, 0xFB#8, 0xFF#8, 0xFF#8, 0xFF#8] = .ok (.callRel32 0xFFFFFFFB#32) ∧
    decode [0b11000011#8] = .ok .ret ∧ decode [0b11101011#8, 0xFE#8] = .ok (.jmpRel8 0xFE#8) ∧
    decode [0b11101001#8, 0x10#8, 0x00#8, 0x00#8, 0x00#8] = .ok (.jmpRel32 0x00000010#32) := by decide

/-- `83` with the extensions 1, 2, 3, 4, 6 and 7. -/
theorem test_decode_group83_faults :
    decode [0b10000011#8, 0b11001000#8] = .ok (.group83Ext1 ⟨3#2, 1#3, 0#3, none, .absent⟩) ∧
    decode [0b10000011#8, 0b11010000#8] = .ok (.group83Ext2 ⟨3#2, 2#3, 0#3, none, .absent⟩) ∧
    decode [0b10000011#8, 0b11011000#8] = .ok (.group83Ext3 ⟨3#2, 3#3, 0#3, none, .absent⟩) ∧
    decode [0b10000011#8, 0b11100000#8] = .ok (.group83Ext4 ⟨3#2, 4#3, 0#3, none, .absent⟩) ∧
    decode [0b10000011#8, 0b11110000#8] = .ok (.group83Ext6 ⟨3#2, 6#3, 0#3, none, .absent⟩) ∧
    decode [0b10000011#8, 0b11111000#8] = .ok (.group83Ext7 ⟨3#2, 7#3, 0#3, none, .absent⟩) := by decide

/-- `FF` with the extensions 1 to 7, and a byte without a handler. -/
theorem test_decode_groupFF_faults :
    decode [0b11111111#8, 0b11001000#8] = .ok (.groupFFExt1 ⟨3#2, 1#3, 0#3, none, .absent⟩) ∧
    decode [0b11111111#8, 0b11010000#8] = .ok (.groupFFExt2 ⟨3#2, 2#3, 0#3, none, .absent⟩) ∧
    decode [0b11111111#8, 0b11011000#8] = .ok (.groupFFExt3 ⟨3#2, 3#3, 0#3, none, .absent⟩) ∧
    decode [0b11111111#8, 0b11100000#8] = .ok (.groupFFExt4 ⟨3#2, 4#3, 0#3, none, .absent⟩) ∧
    decode [0b11111111#8, 0b11101000#8] = .ok (.groupFFExt5 ⟨3#2, 5#3, 0#3, none, .absent⟩) ∧
    decode [0b11111111#8, 0b11110000#8] = .ok (.groupFFExt6 ⟨3#2, 6#3, 0#3, none, .absent⟩) ∧
    decode [0b11111111#8, 0b11111000#8] = .ok (.groupFFExt7 ⟨3#2, 7#3, 0#3, none, .absent⟩) ∧
    decode [0b00001111#8] = .ok (.noHandler 0x0F#8) := by decide

/-- V-AD-10: no disp32 follows a SIB byte with base 5 in mode 0. -/
theorem test_decode_sib_base5 :
    decode [0x8B#8, 0x04#8, 0x25#8, 0x00#8, 0x7C#8, 0x00#8, 0x00#8] =
      .ok (.movR32Rm32 ⟨0#2, 0#3, 4#3, some 0x25#8, .absent⟩) := by decide

/-- A list that ends inside an instruction is no instruction. -/
theorem test_decode_truncated :
    decode [] = .error (.truncated 0) ∧ decode [0x8B#8, 0x45#8] = .error (.truncated 2) ∧
    decode [0xE8#8, 0x05#8, 0x00#8] = .error (.truncated 3) := by decide

/-- The numbering of spec/opcode_table.json: the rows of 83 /5 (0x8328), FF /1 (0xFF08) and B8+r, zeros after them. -/
theorem test_decodeTableWord :
    decodeTableWord 16 0x8328 = some (.subRm32Imm8 ⟨0#2, 5#3, 0#3, none, .absent⟩ 0#8) ∧
    decodeTableWord 16 0xFF08 = some (.groupFFExt1 ⟨0#2, 1#3, 0#3, none, .absent⟩) ∧
    decodeTableWord 8 0xB8 = some (.movR32Imm32 0#3 0#32) ∧ decodeTableWord 8 0x00 = some (.noHandler 0#8) := by decide

/-- A table word runs as the first instruction after reset. -/
theorem test_withFetchWord :
    (after (State.reset.withFetchWord 16 0x83C0)).map (·.eip) = some 0x7C03#32 ∧
    (after (State.reset.withFetchWord 8 0x54)).map (fun t => memReadU32 t.mem 0x7BFC#32) =
      some (.ok 0x00007C00#32) := by decide

/-! ## Promotions (L1.1) -/

theorem test_promotions :
    s8 0x7F#8 = 127 ∧ s8 0x80#8 = -128 ∧ s8 0xF9#8 = -7 ∧ sext32 0xF9#8 = 0xFFFFFFF9#32 ∧
    zext32 0xF9#8 = 0x000000F9#32 ∧ s32 0xFFFFFFF0#32 = -16 := by decide

/-! ## One step of each instruction -/

/-- V-MOV-1, L1.7. -/
theorem test_movR32Imm32 :
    (after (machine Regs.reset [] [0xB8#8, 0x78#8, 0x56#8, 0x34#8, 0x12#8])).map (fun t => (t.regs.eax, t.eip)) =
      some (0x12345678#32, 0x7C05#32) := by decide

/-- V-MOV-2. -/
theorem test_movR32Imm32_esp :
    (after (machine Regs.reset [] [0xBC#8, 0x00#8, 0x70#8, 0x00#8, 0x00#8])).map (fun t => t.regs.esp) =
      some 0x00007000#32 := by decide

/-- V-MOV-4. -/
theorem test_movRm32R32 :
    (after (machine { Regs.reset with ebx := 0xDEADBEEF#32 } [] [0x89#8, 0x1D#8, 0x00#8, 0x70#8, 0x00#8, 0x00#8])).map
      (fun t => (memReadU8 t.mem 0x7000, memReadU8 t.mem 0x7003, t.eip)) =
      some (.ok 0xEF#8, .ok 0xDE#8, 0x7C06#32) := by decide

/-- V-MOV-7: the direction of 89. -/
theorem test_movRm32R32_direction :
    (after (machine { Regs.reset with eax := 7#32 } [] [0x89#8, 0xC3#8])).map (fun t => (t.regs.ebx, t.regs.eax)) =
      some (7#32, 7#32) := by decide

/-- V-AD-3. -/
theorem test_movR32Rm32 :
    (after (machine { Regs.reset with ebp := 0x7BF8#32 } (dwordCells 0x7BF4 0x0000000A#32)
      [0x8B#8, 0x45#8, 0xFC#8])).map (fun t => (t.regs.eax, t.eip)) = some (0x0000000A#32, 0x7C03#32) := by decide

/-- V-AD-5: the effective address wraps to 0. -/
theorem test_movR32Rm32_wraps :
    (after (machine { Regs.reset with eax := 0xFFFFFFFF#32 } [] [0x8B#8, 0x40#8, 0x01#8])).map
      (fun t => (t.regs.eax, t.eip)) = some (0#32, 0x7C03#32) := by decide

/-- V-MOV-10: the reg field of C7 is ignored. -/
theorem test_movRm32Imm32_reg_ignored :
    (after (machine Regs.reset [] [0xC7#8, 0xF8#8, 0x44#8, 0x33#8, 0x22#8, 0x11#8])).map
      (fun t => (t.regs.eax, t.eip)) = some (0x11223344#32, 0x7C06#32) := by decide

/-- V-MOV-12. -/
theorem test_movRm32Imm32_longest :
    (after (machine { Regs.reset with ebp := 0x7000#32 } []
      [0xC7#8, 0x85#8, 0x00#8, 0x01#8, 0x00#8, 0x00#8, 0x01#8, 0x00#8, 0x00#8, 0x00#8])).map
      (fun t => (memReadU32 t.mem 0x7100#32, t.eip)) = some (.ok 1#32, 0x7C0A#32) := by decide

/-- V-ST-2: PUSH ESP stores the old ESP. -/
theorem test_pushR32_esp :
    (after (machine Regs.reset [] [0x54#8])).map (fun t => (memReadU32 t.mem 0x7BFC#32, t.regs.esp, t.eip)) =
      some (.ok 0x00007C00#32, 0x7BFC#32, 0x7C01#32) := by decide

/-- V-ST-11. -/
theorem test_pushR32_wraps_and_faults :
    faultAfter (machine { Regs.reset with esp := 0#32 } [] [0x50#8]) = some (.outOfBounds 0xFFFFFFFC) := by decide

/-- V-ST-3: POP ESP. -/
theorem test_popR32_esp :
    (after (machine { Regs.reset with esp := 0x7BFC#32 } (dwordCells 0x7BFC 0x11223344#32) [0x5C#8])).map
      (fun t => (t.regs.esp, t.eip)) = some (0x11223344#32, 0x7C01#32) := by decide

/-- V-ST-4. -/
theorem test_popR32 :
    (after (machine { Regs.reset with esp := 0x7BFC#32 } (dwordCells 0x7BFC 0x11223344#32) [0x5F#8])).map
      (fun t => (t.regs.edi, t.regs.esp)) = some (0x11223344#32, 0x7C00#32) := by decide

/-- V-ST-5. -/
theorem test_pushImm32 :
    (after (machine Regs.reset [] [0x68#8, 0xEF#8, 0xBE#8, 0xAD#8, 0xDE#8])).map
      (fun t => (memReadU8 t.mem 0x7BFC, memReadU32 t.mem 0x7BFC#32, t.eip)) =
      some (.ok 0xEF#8, .ok 0xDEADBEEF#32, 0x7C05#32) := by decide

/-- V-ST-7: zero-extended on this hardware. -/
theorem test_pushImm8 :
    (after (machine Regs.reset [] [0x6A#8, 0x80#8])).map (fun t => (memReadU32 t.mem 0x7BFC#32, t.eip)) =
      some (.ok 0x00000080#32, 0x7C02#32) := by decide

/-- V-ST-7 with the parameter: sign-extended. -/
theorem test_pushImm8_parameter : pushImm8Value true 0x80#8 = 0xFFFFFF80#32 := by decide

/-- V-ST-9: the order of 90_conflicts.md C1. -/
theorem test_leave :
    (after (machine { Regs.reset with ebp := 0x7BF8#32, esp := 0x7BF0#32 }
      (dwordCells 0x7BF0 0xAAAAAAAA#32 ++ dwordCells 0x7BF8 0x55555555#32) [0xC9#8])).map
      (fun t => (t.regs.esp, t.regs.ebp, t.eip)) = some (0x7BFC#32, 0x55555555#32, 0x7C01#32) := by decide

/-- V-ST-13. -/
theorem test_leave_faults :
    faultAfter (machine { Regs.reset with ebp := 0x00100000#32 } [] [0xC9#8]) =
      some (.outOfBounds 0x00100000) := by decide

/-- V-AR-2. -/
theorem test_addRm32R32_wraps :
    (after (machine { Regs.reset with eax := 0xFFFFFFFF#32, ecx := 1#32 } [] [0x01#8, 0xC8#8])).map
      (fun t => (t.regs.eax, t.regs.ecx, t.flags, t.eip)) = some (0#32, 1#32, 0#32, 0x7C02#32) := by decide

/-- V-AR-4. -/
theorem test_addRm32R32_memory :
    (after (machine { Regs.reset with ebp := 0x7BF8#32, eax := 5#32 } (dwordCells 0x7BF4 0x0A#32)
      [0x01#8, 0x45#8, 0xFC#8])).map (fun t => (memReadU32 t.mem 0x7BF4#32, t.regs.eax)) =
      some (.ok 0x0F#32, 5#32) := by decide

/-- V-AR-8: the immediate of 83 is sign-extended. -/
theorem test_addRm32Imm8 :
    (after (machine Regs.reset [] [0x83#8, 0xC0#8, 0x80#8])).map (fun t => (t.regs.eax, t.eip)) =
      some (0xFFFFFF80#32, 0x7C03#32) := by decide

/-- V-AR-14. -/
theorem test_addRm32Imm8_memory :
    (after (machine { Regs.reset with ebp := 0x7BF8#32 } (dwordCells 0x7BF4 0x0A#32)
      [0x83#8, 0x45#8, 0xFC#8, 0x05#8])).map (fun t => (memReadU32 t.mem 0x7BF4#32, t.eip)) =
      some (.ok 0x0F#32, 0x7C04#32) := by decide

/-- V-AR-11. -/
theorem test_subRm32Imm8 :
    (after (machine Regs.reset [] [0x83#8, 0xE8#8, 0x80#8])).map (fun t => t.regs.eax) = some 0x80#32 := by decide

/-- V-AR-13: SUB ESP, 8 is no SIB form. -/
theorem test_subRm32Imm8_esp :
    (after (machine Regs.reset [] [0x83#8, 0xEC#8, 0x08#8])).map (fun t => (t.regs.esp, t.eip)) =
      some (0x7BF8#32, 0x7C03#32) := by decide

/-- V-AR-21. -/
theorem test_incRm32 :
    (after (machine { Regs.reset with eax := 0x7FFFFFFF#32 } [] [0xFF#8, 0xC0#8])).map
      (fun t => (t.regs.eax, t.flags)) = some (0x80000000#32, 0#32) := by decide

/-- V-AR-22. -/
theorem test_incRm32_memory :
    (after (machine { Regs.reset with ebp := 0x7BF8#32 } (dwordCells 0x7BF4 0x0F#32) [0xFF#8, 0x45#8, 0xFC#8])).map
      (fun t => (memReadU32 t.mem 0x7BF4#32, t.eip)) = some (.ok 0x10#32, 0x7C03#32) := by decide

/-- V-AR-15 to V-AR-18: the group fault comes before the SIB form. -/
theorem test_group83_faults :
    faultAfter (machine Regs.reset [] [0x83#8, 0xC8#8, 0x01#8]) =
      some (.unimplementedGroupExtension 0x83#8 1#3) ∧
    faultAfter (machine Regs.reset [] [0x83#8, 0xE0#8, 0x01#8]) =
      some (.unimplementedGroupExtension 0x83#8 4#3) ∧
    faultAfter (machine Regs.reset [] [0x83#8, 0x3C#8, 0x24#8, 0x00#8]) =
      some (.unimplementedGroupExtension 0x83#8 7#3) := by decide

/-- V-AR-23 to V-AR-25. -/
theorem test_groupFF_faults :
    faultAfter (machine Regs.reset [] [0xFF#8, 0xC8#8]) = some (.unimplementedGroupExtension 0xFF#8 1#3) ∧
    faultAfter (machine Regs.reset [] [0xFF#8, 0xD0#8]) = some (.unimplementedGroupExtension 0xFF#8 2#3) ∧
    faultAfter (machine Regs.reset [] [0xFF#8, 0x35#8, 0x00#8, 0x70#8, 0x00#8, 0x00#8]) =
      some (.unimplementedGroupExtension 0xFF#8 6#3) := by decide

/-- V-CT-1. -/
theorem test_callRel32 :
    (after (machine Regs.reset [] [0xE8#8, 0x05#8, 0x00#8, 0x00#8, 0x00#8])).map
      (fun t => (memReadU32 t.mem 0x7BFC#32, t.regs.esp, t.eip)) =
      some (.ok 0x00007C05#32, 0x7BFC#32, 0x7C0A#32) := by decide

/-- V-CT-3. -/
theorem test_ret :
    (after (machine { Regs.reset with esp := 0x7BFC#32 } (dwordCells 0x7BFC 0x00007C05#32) [0xC3#8])).map
      (fun t => (t.eip, t.regs.esp)) = some (0x7C05#32, 0x7C00#32) := by decide

/-- V-CT-6. -/
theorem test_jmpRel8 :
    (after (machine Regs.reset [] [0xEB#8, 0x80#8])).map (·.eip) = some 0x7B82#32 := by decide

/-- V-CT-8, V-CT-10. -/
theorem test_jmpRel32_halts :
    (after (machine Regs.reset [] [0xE9#8, 0xFB#8, 0x83#8, 0xFF#8, 0xFF#8])).map (fun t => (t.eip, t.status)) =
      some (0#32, .halted .sentinelEIP) ∧
    (after (machine Regs.reset [] [0xE9#8, 0xFC#8, 0x83#8, 0x0F#8, 0x00#8])).map (fun t => (t.eip, t.status)) =
      some (0x00100001#32, .halted .safetyBound) := by decide

/-- V-CT-9: the bound itself does not halt. -/
theorem test_jmpRel32_bound :
    (after (machine Regs.reset [] [0xE9#8, 0xFB#8, 0x83#8, 0x0F#8, 0x00#8])).map (fun t => (t.eip, t.status)) =
      some (0x00100000#32, .running) := by decide

/-- V-LP-3: EIP stays. -/
theorem test_noHandler :
    (after (machine Regs.reset [] [0xF4#8])).map (fun t => (t.eip, t.status)) =
      some (0x7C00#32, .halted (.unknownOpcode 0xF4#8)) := by decide

/-! ## Faults of fetches and operands -/

/-- V-AD-7 to V-AD-9, V-MOV-13, V-MOV-15, V-AR-19. -/
theorem test_sib_faults :
    faultAfter (machine Regs.reset [] [0x8B#8, 0x04#8, 0x24#8]) = some (.unsupportedSIB 0x24#8) ∧
    faultAfter (machine Regs.reset [] [0x8B#8, 0x84#8, 0x24#8, 0#8, 1#8, 0#8, 0#8]) = some (.unsupportedSIB 0x24#8) ∧
    faultAfter (machine Regs.reset [] [0xC7#8, 0x04#8, 0x24#8, 1#8, 0#8, 0#8, 0#8]) = some (.unsupportedSIB 0x24#8) ∧
    faultAfter (machine Regs.reset [] [0x83#8, 0x04#8, 0x24#8, 1#8]) = some (.unsupportedSIB 0x24#8) := by decide

/-- V-AD-11, V-AD-13, V-LP-1, V-MOV-14. -/
theorem test_bounds_faults :
    (bootImage [0x8B#8, 0x05#8, 0x04#8, 0x7C#8, 0x00#8, 0x00#8]).bind faultAfter = some (.outOfBounds 0x7C06) ∧
    (bootImage [0x8B#8, 0x45#8]).bind faultAfter = some (.outOfBounds 0x7C02) ∧
    (bootImage []).bind faultAfter = some (.outOfBounds 0x7C00) ∧
    faultAfter (machine Regs.reset [] [0x89#8, 0x05#8, 0#8, 0#8, 0x10#8, 0#8]) =
      some (.outOfBounds 0x00100000) := by decide

/-! ## Reset and the host's view -/

/-- L1.9: Scenario C, with its dump and its trace. -/
theorem test_scenario_c :
    ((bootImage [0x0F#8]).bind after).map (fun t => (t.trace, exitCode t.status, (dump t).map dumpLines)) =
      some ([⟨0x7C00#32, 0x0F#8⟩], some 0, some ["EAX = 00000000", "ECX = 00000000", "EDX = 00000000",
        "EBX = 00000000", "ESP = 00007C00", "EBP = 00000000", "ESI = 00000000", "EDI = 00000000",
        "EIP = 00007C00"]) := by decide

/-- L1.10: Scenario D, with its trace; 60_exceptions.md R101's trace text. -/
theorem test_scenario_d :
    ((bootImage [0x83#8, 0xF8#8, 0x01#8]).bind (fun s => traceAfter (step s))) = some [⟨0x7C00#32, 0x83#8⟩] ∧
    traceLine ⟨0x7C00#32, 0x83#8⟩ = "EIP = 7C00, Code = 83" := by decide

/-- A halted machine takes no further step (45_execution_loop.md R88). -/
theorem test_halted_is_terminal :
    ((bootImage [0x0F#8]).bind after).bind after = none := by decide

/-! ## Witnesses: every statement's hypotheses can be met

One theorem per statement of Certificates/Slice0/Obligations.lean that has hypotheses; a conjunct per clause, at the
boundary values of its range. -/

/-- The longest form of a well-formed instruction, a register form, and an unhandled byte. -/
theorem witness_DecodeInvertsEncode :
    (Instr.movRm32Imm32 ⟨2#2, 7#3, 4#3, some 0xFF#8, .disp32 0xFFFFFFFF#32⟩ 0#32).wf = true ∧
    (Instr.subRm32Imm8 ⟨3#2, 5#3, 7#3, none, .absent⟩ 0x80#8).wf = true ∧ (Instr.noHandler 0x00#8).wf = true := by decide

theorem witness_DecodedBytesAreItsEncoding :
    decode [0x83#8, 0x6C#8, 0x24#8, 0x7F#8, 0xFF#8, 0x00#8] =
      .ok (.subRm32Imm8 ⟨1#2, 5#3, 4#3, some 0x24#8, .disp8 0x7F#8⟩ 0xFF#8) := by decide

theorem witness_ModRMLengthByModeAndRm :
    decodeModRM (listSource [0xBC#8, 0x24#8, 1#8, 2#8, 3#8, 4#8]) 0 =
      .ok ⟨2#2, 7#3, 4#3, some 0x24#8, .disp32 0x04030201#32⟩ ∧
    decodeModRM (listSource [0x89#8, 0xFF#8]) 1 = .ok ⟨3#2, 7#3, 7#3, none, .absent⟩ := by decide

theorem witness_SibAndDisplacementPresence :
    decodeModRM (listSource [0x44#8, 0x24#8, 0x80#8]) 0 = .ok ⟨1#2, 0#3, 4#3, some 0x24#8, .disp8 0x80#8⟩ ∧
    decodeModRM (listSource [0x05#8, 1#8, 2#8, 3#8, 4#8]) 0 = .ok ⟨0#2, 0#3, 5#3, none, .disp32 0x04030201#32⟩ ∧
    decodeModRM (listSource [0x00#8]) 0 = .ok ⟨0#2, 0#3, 0#3, none, .absent⟩ := by decide

theorem witness_PromotionsToThirtyTwoBits :
    (0x7F#8).toNat < 128 ∧ 128 ≤ (0x80#8).toNat ∧ (0x7FFFFFFF#32).toNat < 2 ^ 31 ∧ 2 ^ 31 ≤ (0x80000000#32).toNat := by
  decide

theorem witness_RegisterAccessors : (7 < 8 ∧ (0 : Nat) ≠ 7) ∧ 8 ≤ 8 := by decide

/-- The last byte in bounds, the first one out, and a dword that reaches it. -/
theorem witness_ByteAccessAndBounds :
    0x7BFF < State.reset.mem.size ∧ (0 : Nat) ≠ 0x7BFF ∧ State.reset.mem.size ≤ 0x7C00 ∧
    ((0x7BFD#32).toNat ≤ 0x7C00 ∧ 0x7C00 < (0x7BFD#32).toNat + 4) := by decide

/-- The last dword in bounds; the first failing byte is the first, or the last, of the four. -/
theorem witness_DwordReadLittleEndian :
    (memReadU8 State.reset.mem 0x7BFC = .ok 0#8 ∧ memReadU8 State.reset.mem (0x7BFC + 1) = .ok 0#8 ∧
      memReadU8 State.reset.mem (0x7BFC + 2) = .ok 0#8 ∧ memReadU8 State.reset.mem (0x7BFC + 3) = .ok 0#8) ∧
    (State.reset.mem.size ≤ (0x7C00#32).toNat + 0 ∧ ∀ j < 0, (0x7C00#32).toNat + j < State.reset.mem.size) ∧
    (State.reset.mem.size ≤ (0x7BFD#32).toNat + 3 ∧ ∀ j < 3, (0x7BFD#32).toNat + j < State.reset.mem.size) := by decide

theorem witness_DwordWriteReadBack :
    (0x7BFC#32).toNat + 3 < State.reset.mem.size ∧ (0x7BFB < (0x7BFC#32).toNat ∧ (0x7BFC#32).toNat + 4 ≤ 0x7C00) ∧
    (State.reset.mem.size ≤ (0xFFFFFFFF#32).toNat + 0 ∧ ∀ j < 0, (0xFFFFFFFF#32).toNat + j < State.reset.mem.size) ∧
    (State.reset.mem.size ≤ (0x7BFD#32).toNat + 3 ∧ ∀ j < 3, (0x7BFD#32).toNat + j < State.reset.mem.size) := by decide

/-- A write of 0x00 to the last byte removes its entry: the two memories are one. -/
theorem witness_MemoryCanonicalForm :
    (State.reset.mem.put 0x7BFF 1#8).wf ∧
    memWriteU8 (State.reset.mem.put 0x7BFF 1#8) 0x7BFF 0#8 = .ok State.reset.mem ∧
    memWriteU32 (State.reset.mem.put 0x7BFF 1#8) 0x7BFC#32 0#32 = .ok State.reset.mem ∧
    State.reset.mem.wf ∧ MemSame State.reset.mem State.reset.mem :=
  ⟨by decide, by decide, by decide, by decide, fun _ => rfl⟩

/-- One descriptor for each clause. -/
theorem witness_EffectiveAddressForms :
    (⟨3#2, 0#3, 0#3, none, .absent⟩ : Descriptor).mode = 3#2 ∧
    ((⟨0#2, 0#3, 4#3, some 0x24#8, .absent⟩ : Descriptor).mode ≠ 3#2 ∧
      (⟨0#2, 0#3, 4#3, some 0x24#8, .absent⟩ : Descriptor).sib = some 0x24#8) ∧
    ((⟨0#2, 0#3, 7#3, none, .absent⟩ : Descriptor).rm ≠ 4#3 ∧ (⟨0#2, 0#3, 7#3, none, .absent⟩ : Descriptor).rm ≠ 5#3) ∧
    (⟨0#2, 0#3, 5#3, none, .disp32 0#32⟩ : Descriptor).disp = .disp32 0#32 ∧
    (⟨1#2, 0#3, 5#3, none, .disp8 0x80#8⟩ : Descriptor).disp = .disp8 0x80#8 ∧
    (⟨2#2, 0#3, 5#3, none, .disp32 0xFFFFFFFF#32⟩ : Descriptor).disp = .disp32 0xFFFFFFFF#32 := by decide

/-- The stack at the top of memory and just outside it. -/
theorem witness_PushThenPop :
    (State.reset.getReg .ESP - 4#32).toNat + 3 < State.reset.mem.size ∧
    memReadU32 State.reset.mem ((State.reset.setReg .ESP 0x7BFC#32).getReg .ESP) = .ok 0#32 ∧
    State.reset.mem.size ≤ ((State.reset.setReg .ESP 0x7BFD#32).getReg .ESP).toNat + 3 := by decide

/-! ### The r/m instructions -/

/-- A machine whose EBX points at its last dword, and EDI one byte further. -/
def rmMachine (code : List Byte) : State :=
  machine { Regs.reset with ebx := 0x7C0C#32, edi := 0x7C0D#32 } [] code

/-- The four forms of an r/m operand with a given reg field: register, last dword of memory, first dword that reaches
`MEM_SIZE`, SIB form; all well-formed. -/
abbrev RmHypotheses (reg : Field3) : Prop :=
  (⟨3#2, reg, 4#3, none, .absent⟩ : Descriptor).wf = true ∧
  effectiveAddress (rmMachine []).regs ⟨0#2, reg, 3#3, none, .absent⟩ = .ok 0x7C0C#32 ∧
  memReadU32 (rmMachine []).mem 0x7C0C#32 = .ok 0#32 ∧ (0x7C0C#32).toNat + 3 < (rmMachine []).mem.size ∧
  effectiveAddress (rmMachine []).regs ⟨0#2, reg, 7#3, none, .absent⟩ = .ok 0x7C0D#32 ∧
  (rmMachine []).mem.size ≤ (0x7C0D#32).toNat + 3 ∧
  (⟨2#2, reg, 4#3, some 0x00#8, .disp32 0#32⟩ : Descriptor).wf = true

theorem witness_MovRm32R32Effect : RmHypotheses 4#3 := by decide
theorem witness_MovR32Rm32Effect : RmHypotheses 4#3 := by decide
theorem witness_MovRm32Imm32Effect : RmHypotheses 7#3 := by decide
theorem witness_AddRm32R32Effect : RmHypotheses 4#3 := by decide
theorem witness_IncRm32Effect : RmHypotheses 0#3 := by decide

theorem witness_AddRm32Imm8Effect :
    RmHypotheses 0#3 ∧ (rmMachine [0x83#8, 0x07#8]).status = .running ∧
    memReadU8 (rmMachine [0x83#8, 0x07#8]).mem 0x7C00 = .ok 0x83#8 ∧
    decodeModRM (fetchSource (rmMachine [0x83#8, 0x07#8])) 1 = .ok ⟨0#2, 0#3, 7#3, none, .absent⟩ ∧
    readOperand32 (rmMachine [0x83#8, 0x07#8]) ⟨0#2, 0#3, 7#3, none, .absent⟩ = .error (.outOfBounds 0x7C10) := by decide

theorem witness_SubRm32Imm8Effect :
    RmHypotheses 5#3 ∧ (rmMachine [0x83#8, 0x2F#8]).status = .running ∧
    memReadU8 (rmMachine [0x83#8, 0x2F#8]).mem 0x7C00 = .ok 0x83#8 ∧
    decodeModRM (fetchSource (rmMachine [0x83#8, 0x2F#8])) 1 = .ok ⟨0#2, 5#3, 7#3, none, .absent⟩ ∧
    readOperand32 (rmMachine [0x83#8, 0x2F#8]) ⟨0#2, 5#3, 7#3, none, .absent⟩ = .error (.outOfBounds 0x7C10) := by decide

/-! ### The stack instructions -/

/-- The lowest dword a push can store to is at 0; with ESP below 4 it wraps out of memory. -/
abbrev PushHypotheses : Prop :=
  ((State.reset.setReg .ESP 4#32).getReg .ESP - 4#32).toNat + 3 < State.reset.mem.size ∧
  State.reset.mem.size ≤ ((State.reset.setReg .ESP 3#32).getReg .ESP - 4#32).toNat + 3

theorem witness_PushR32Effect : PushHypotheses := by decide
theorem witness_PushImm32Effect : PushHypotheses := by decide
theorem witness_PushImm8Effect : PushHypotheses := by decide
theorem witness_CallRel32Effect : PushHypotheses := by decide

/-- The last dword of memory, and the first that reaches `MEM_SIZE`. -/
abbrev PopHypotheses (r : Reg) : Prop :=
  memReadU32 State.reset.mem ((State.reset.setReg r 0x7BFC#32).getReg r) = .ok 0#32 ∧
  State.reset.mem.size ≤ ((State.reset.setReg r 0x7BFD#32).getReg r).toNat + 3

theorem witness_PopR32Effect : PopHypotheses .ESP := by decide
theorem witness_RetEffect : PopHypotheses .ESP := by decide
theorem witness_LeaveEffect :
    PopHypotheses .EBP ∧
    (State.reset.setReg .EBP 0x00007C00#32).getReg .EBP = (State.reset.setReg .EBP 0x00007C00#32).getReg .ESP := by decide

/-! ### The terminal rows -/

theorem witness_UnknownOpcodeHalts :
    (machine Regs.reset [] [0x90#8]).status = .running ∧ 0x90#8 ∉ handledOpcodes ∧
    memReadU8 (machine Regs.reset [] [0x90#8]).mem 0x7C00 = .ok 0x90#8 := by decide

/-- An unimplemented extension (a SIB form), and the two implemented ones. -/
theorem witness_Group83UnimplementedFaults :
    ((rmMachine [0x83#8, 0x3C#8, 0x24#8]).status = .running ∧
      memReadU8 (rmMachine [0x83#8, 0x3C#8, 0x24#8]).mem 0x7C00 = .ok 0x83#8 ∧
      decodeModRM (fetchSource (rmMachine [0x83#8, 0x3C#8, 0x24#8])) 1 =
        .ok ⟨0#2, 7#3, 4#3, some 0x24#8, .absent⟩) ∧
    (decodeModRM (fetchSource (rmMachine [0x83#8, 0x03#8, 0x7F#8])) 1 = .ok ⟨0#2, 0#3, 3#3, none, .absent⟩ ∧
      readOperand32 (rmMachine [0x83#8, 0x03#8, 0x7F#8]) ⟨0#2, 0#3, 3#3, none, .absent⟩ = .ok 0#32 ∧
      fetchU8 (rmMachine [0x83#8, 0x03#8, 0x7F#8]) 2 = .ok 0x7F#8) ∧
    (decodeModRM (fetchSource (rmMachine [0x83#8, 0x2B#8, 0x80#8])) 1 = .ok ⟨0#2, 5#3, 3#3, none, .absent⟩ ∧
      readOperand32 (rmMachine [0x83#8, 0x2B#8, 0x80#8]) ⟨0#2, 5#3, 3#3, none, .absent⟩ = .ok 0#32 ∧
      fetchU8 (rmMachine [0x83#8, 0x2B#8, 0x80#8]) 2 = .ok 0x80#8) := by decide

theorem witness_GroupFFUnimplementedFaults :
    ((rmMachine [0xFF#8, 0x0C#8, 0x24#8]).status = .running ∧
      memReadU8 (rmMachine [0xFF#8, 0x0C#8, 0x24#8]).mem 0x7C00 = .ok 0xFF#8 ∧
      decodeModRM (fetchSource (rmMachine [0xFF#8, 0x0C#8, 0x24#8])) 1 =
        .ok ⟨0#2, 1#3, 4#3, some 0x24#8, .absent⟩) ∧
    (memReadU8 (rmMachine [0xFF#8, 0x03#8]).mem 0x7C00 = .ok 0xFF#8 ∧
      decodeModRM (fetchSource (rmMachine [0xFF#8, 0x03#8])) 1 = .ok ⟨0#2, 0#3, 3#3, none, .absent⟩) := by decide

/-! ### Frames -/

/-- MOV ESP, imm32; MOV EDI, [EBX]; INC ESP. -/
theorem witness_RegisterFormsFrame :
    (∃ t, exec (.movR32Imm32 4#3 0#32) (rmMachine []) = .next t) ∧
    (∃ t, exec (.movR32Rm32 ⟨0#2, 7#3, 3#3, none, .absent⟩) (rmMachine []) = .next t) ∧
    (∃ t, rmDestination (.incRm32 ⟨3#2, 0#3, 4#3, none, .absent⟩) = some ⟨3#2, 0#3, 4#3, none, .absent⟩ ∧
      exec (.incRm32 ⟨3#2, 0#3, 4#3, none, .absent⟩) (rmMachine []) = .next t) :=
  ⟨⟨_, rfl⟩, ⟨_, rfl⟩, ⟨_, rfl, rfl⟩⟩

/-- ADD [EBX], EBX: the base register is a source, the address is the last dword. -/
theorem witness_MemoryFormsFrame :
    ∃ t, rmDestination (.addRm32R32 ⟨0#2, 3#3, 3#3, none, .absent⟩) = some ⟨0#2, 3#3, 3#3, none, .absent⟩ ∧
      exec (.addRm32R32 ⟨0#2, 3#3, 3#3, none, .absent⟩) (rmMachine []) = .next t ∧
      memReadU32 t.mem 0x7C0C#32 = .ok 0x7C0C#32 := ⟨_, rfl, rfl, rfl⟩

theorem witness_PushFormsFrame :
    (∃ t, exec (.pushR32 4#3) State.reset = .next t) ∧ (∃ t, exec (.pushImm32 0#32) State.reset = .next t) ∧
    (∃ t, exec (.pushImm8 0x80#8) State.reset = .next t) ∧ (∃ t, exec (.callRel32 0#32) State.reset = .next t) :=
  ⟨⟨_, rfl⟩, ⟨_, rfl⟩, ⟨_, rfl⟩, ⟨_, rfl⟩⟩

theorem witness_PopFormsFrame :
    (∃ t, exec (.popR32 4#3) (State.reset.setReg .ESP 0x7BFC#32) = .next t) ∧
    (∃ t, exec .leave State.reset = .next t) ∧
    (∃ t, exec .ret (State.reset.setReg .ESP 0x7BFC#32) = .next t) := ⟨⟨_, rfl⟩, ⟨_, rfl⟩, ⟨_, rfl⟩⟩

theorem witness_ExecKeepsControlState :
    (∃ t, exec (.jmpRel8 0#8) State.reset = .next t) ∧ (∃ t, exec (.noHandler 0x0F#8) State.reset = .next t) :=
  ⟨⟨_, rfl⟩, ⟨_, rfl⟩⟩

/-! ### The step -/

/-- JMP rel8 to itself. -/
def loopMachine : State := machine Regs.reset [] [0xEB#8, 0xFE#8]

theorem witness_StepRunsDecodedInstruction :
    (loopMachine.status = .running ∧ loopMachine.mem.size ≤ Config.addressSpace ∧
      decode [0xEB#8, 0xFE#8] = .ok (.jmpRel8 0xFE#8) ∧ HoldsAt loopMachine.mem loopMachine.eip.toNat [0xEB#8, 0xFE#8]) ∧
    (memReadU8 loopMachine.mem loopMachine.eip.toNat = .ok 0xEB#8 ∧
      fetchInstr loopMachine = .ok (.jmpRel8 0xFE#8)) ∧
    (∃ s, bootImage [0x8B#8, 0x85#8] = some s ∧ s.status = .running ∧ memReadU8 s.mem s.eip.toNat = .ok 0x8B#8 ∧
      fetchInstr s = .error (.outOfBounds 0x7C02)) :=
  ⟨⟨by decide, by decide, by decide, by
    rw [holdsAt_cons, holdsAt_cons]; exact ⟨by decide, by decide, holdsAt_nil _ _⟩⟩,
    by decide, _, rfl, rfl, by decide, by decide⟩

/-- Jumps to 0, to one above the bound, and to the bound itself (V-CT-8 to V-CT-10). -/
theorem witness_PostInstructionChecks :
    (∃ t, fetchInstr (machine Regs.reset [] [0xE9#8, 0xFB#8, 0x83#8, 0xFF#8, 0xFF#8]) = .ok (.jmpRel32 0xFFFF83FB#32) ∧
      exec (.jmpRel32 0xFFFF83FB#32) State.reset = .next t ∧ t.status = .running ∧ t.eip.toNat = 0) ∧
    (∃ t, fetchInstr (machine Regs.reset [] [0xE9#8, 0xFC#8, 0x83#8, 0x0F#8, 0x00#8]) = .ok (.jmpRel32 0x000F83FC#32) ∧
      exec (.jmpRel32 0x000F83FC#32) State.reset = .next t ∧ t.status = .running ∧ t.eip.toNat = 0x00100001) ∧
    (∃ t, fetchInstr (machine Regs.reset [] [0xE9#8, 0xFB#8, 0x83#8, 0x0F#8, 0x00#8]) = .ok (.jmpRel32 0x000F83FB#32) ∧
      exec (.jmpRel32 0x000F83FB#32) State.reset = .next t ∧ t.status = .running ∧ t.eip.toNat = 0x00100000) :=
  ⟨⟨_, by decide, rfl, rfl, by decide⟩, ⟨_, by decide, rfl, rfl, by decide⟩, ⟨_, by decide, rfl, rfl, by decide⟩⟩

theorem witness_StepRefusesExactlyWhenTerminal :
    State.reset.status = .running ∧ (State.reset.halt .sentinelEIP).status ≠ .running := by decide

theorem witness_OpcodeFetchOutOfBounds :
    State.reset.status = .running ∧ State.reset.mem.size ≤ State.reset.eip.toNat := by decide

/-- MOV EAX, [disp32] cut after its ModRM byte; and ADD r/m32, imm8 cut before its immediate, its operand readable. -/
theorem witness_InstructionsAreFetchedAsTheirBytes :
    (Instr.movR32Rm32 ⟨0#2, 0#3, 5#3, none, .disp32 0#32⟩).wf = true ∧
    (2 < (encode (.movR32Rm32 ⟨0#2, 0#3, 5#3, none, .disp32 0#32⟩)).length ∧
      (∃ s, bootImage [0x8B#8, 0x05#8] = some s ∧ s.status = .running ∧ s.mem.size ≤ s.eip.toNat + 2 ∧
        s.eip.toNat + 2 < 2 ^ 32 ∧ HoldsAt s.mem s.eip.toNat [0x8B#8, 0x05#8])) ∧
    ((Instr.addRm32Imm8 ⟨3#2, 0#3, 0#3, none, .absent⟩ 1#8).wf = true ∧
      (∃ s v, bootImage [0x83#8, 0xC0#8] = some s ∧ readOperand32 s ⟨3#2, 0#3, 0#3, none, .absent⟩ = .ok v ∧
        s.mem.size ≤ s.eip.toNat + 2)) :=
  ⟨by decide, ⟨by decide, _, rfl, rfl, by decide, by decide, by
    rw [holdsAt_cons, holdsAt_cons]; exact ⟨by decide, by decide, holdsAt_nil _ _⟩⟩, by decide, _, _, rfl, rfl, by decide⟩

/-- The operand faults while the immediate is out of bounds too; the operand reads and the immediate does not. -/
theorem witness_OperandFaultBeforeImmediate :
    (∃ s, bootImage [0x83#8, 0x04#8, 0x24#8] = some s ∧ memReadU8 s.mem s.eip.toNat = .ok 0x83#8 ∧
      decodeModRM (fetchSource s) 1 = .ok ⟨0#2, 0#3, 4#3, some 0x24#8, .absent⟩ ∧
      readOperand32 s ⟨0#2, 0#3, 4#3, some 0x24#8, .absent⟩ = .error (.unsupportedSIB 0x24#8)) ∧
    (∃ s v, bootImage [0x83#8, 0xEC#8] = some s ∧
      decodeModRM (fetchSource s) 1 = .ok ⟨3#2, 5#3, 4#3, none, .absent⟩ ∧
      readOperand32 s ⟨3#2, 5#3, 4#3, none, .absent⟩ = .ok v ∧ s.mem.size ≤ (s.eip + 2#32).toNat) :=
  ⟨⟨_, rfl, by decide, by decide, by decide⟩, ⟨_, _, rfl, by decide, rfl, by decide⟩⟩

theorem witness_TraceGrowsByTheFetchedOpcode :
    (loopMachine.status = .running ∧ memReadU8 loopMachine.mem loopMachine.eip.toNat = .ok 0xEB#8) ∧
    memReadU8 State.reset.mem State.reset.eip.toNat = .error (.outOfBounds 0x7C00) := by decide

theorem witness_FlagsAreStorageOnly : ∃ t, step { loopMachine with flags := 0xFFFFFFFF#32 } = .next t := ⟨_, rfl⟩

theorem witness_StepNeverRaisesDefensiveFaults : step State.reset = .fault (.faulted (.outOfBounds 0x7C00) []) := rfl

/-! ### Runs -/

theorem witness_StepKeepsInvariant :
    Inv loopMachine ∧ (∃ t, step loopMachine = .next t) ∧ Inv (machine Regs.reset [] [0x0F#8]) ∧
    (∃ t, step (machine Regs.reset [] [0x0F#8]) = .next t ∧ t.status = .halted (.unknownOpcode 0x0F#8)) :=
  ⟨⟨by decide, by decide, (by decide : 0x7C00#32 ≠ 0#32 ∧ 0x7C00#32 ≤ Config.safetyBound)⟩, ⟨_, rfl⟩,
    ⟨by decide, by decide, (by decide : 0x7C00#32 ≠ 0#32 ∧ 0x7C00#32 ≤ Config.safetyBound)⟩, ⟨_, rfl, rfl⟩⟩

theorem witness_EveryRunKeepsInvariant :
    ∃ s t, bootImage [0xEB#8, 0xFE#8] = some s ∧ Reaches s t ∧ t.trace = [⟨0x7C00#32, 0xEB#8⟩] :=
  ⟨_, _, rfl, .step (.refl _) rfl, rfl⟩

theorem witness_BootBuildsTheResetState :
    ∃ s, boot 0x7C00#32 0x7000#32 [0x90#8] = some s ∧ ([0x90#8] : List Byte)[0]? = some 0x90#8 ∧
      0x7BFF < (0x7C00#32).toNat ∧ (0x7C00#32).toNat + 1 ≤ 0x7C01 := ⟨_, rfl, rfl, by decide, by decide⟩

theorem witness_DumpAndExitCodes :
    (State.reset.halt .safetyBound).status = .halted .safetyBound ∧
    ({ State.reset with status := .faulted (.outOfBounds 0) } : State).status = .faulted (.outOfBounds 0) ∧
    State.reset.status = .running ∧ step State.reset = .fault (.faulted (.outOfBounds 0x7C00) []) :=
  ⟨rfl, rfl, rfl, rfl⟩

/-- An instruction answers a next state of `rmMachine` with a store at the address; the dword that stood there is 0. -/
abbrev StoresAt (a v : Word) (i : Instr) : Prop :=
  (∃ t, exec i (rmMachine []) = .next t) ∧ storeAddress i (rmMachine []) = some a ∧
    storedDword i (rmMachine []) 0#32 = some v

/-- The ten forms that store: over the last dword of the image, and below ESP. Register and load forms that do not. A
fetch at the stored address, of the dword and of its last byte. -/
theorem witness_StoreSeenByNextFetch :
    StoresAt 0x7C0C#32 0x7C0C#32 (.addRm32R32 ⟨0#2, 3#3, 3#3, none, .absent⟩) ∧
    StoresAt 0x7C0C#32 0xFFFFFFFF#32 (.addRm32Imm8 ⟨0#2, 0#3, 3#3, none, .absent⟩ 0xFF#8) ∧
    StoresAt 0x7C0C#32 0x00000080#32 (.subRm32Imm8 ⟨0#2, 5#3, 3#3, none, .absent⟩ 0x80#8) ∧
    StoresAt 0x7C0C#32 1#32 (.incRm32 ⟨0#2, 0#3, 3#3, none, .absent⟩) ∧
    StoresAt 0x7C0C#32 0x7C00#32 (.movRm32R32 ⟨0#2, 4#3, 3#3, none, .absent⟩) ∧
    StoresAt 0x7C0C#32 0xDEADBEEF#32 (.movRm32Imm32 ⟨0#2, 0#3, 3#3, none, .absent⟩ 0xDEADBEEF#32) ∧
    StoresAt 0x7BFC#32 0x7C00#32 (.pushR32 4#3) ∧ StoresAt 0x7BFC#32 0xDEADBEEF#32 (.pushImm32 0xDEADBEEF#32) ∧
    StoresAt 0x7BFC#32 0x000000FF#32 (.pushImm8 0xFF#8) ∧ StoresAt 0x7BFC#32 0x7C05#32 (.callRel32 0#32) ∧
    (∃ t, exec (.incRm32 ⟨3#2, 0#3, 0#3, none, .absent⟩) (rmMachine []) = .next t ∧
      storeAddress (.incRm32 ⟨3#2, 0#3, 0#3, none, .absent⟩) (rmMachine []) = none) ∧
    fetchAddress ((rmMachine []).setEip 0x7C0C#32) 0 = 0x7C0C#32 ∧
    (fetchAddress ((rmMachine []).setEip 0x7C0C#32) 3).toNat = (0x7C0C#32).toNat + 3 :=
  ⟨⟨⟨_, rfl⟩, rfl, rfl⟩, ⟨⟨_, rfl⟩, rfl, rfl⟩, ⟨⟨_, rfl⟩, rfl, rfl⟩, ⟨⟨_, rfl⟩, rfl, rfl⟩, ⟨⟨_, rfl⟩, rfl, rfl⟩,
    ⟨⟨_, rfl⟩, rfl, rfl⟩, ⟨⟨_, rfl⟩, rfl, rfl⟩, ⟨⟨_, rfl⟩, rfl, rfl⟩, ⟨⟨_, rfl⟩, rfl, rfl⟩, ⟨⟨_, rfl⟩, rfl, rfl⟩,
    ⟨_, rfl, rfl⟩, rfl, rfl⟩

end Sys2Proof.Tests
end

