-- ==== Sys2Proof/Proofs/Promotions.lean ====
section
/-! The signed readings and the promotions of 00_scope.md R8, tied to the library's `BitVec.toInt`, `BitVec.signExtend` and
`BitVec.zeroExtend`; with them the statement of R8 is settled. -/

namespace Sys2Proof

/-- R8's reading of a byte is the two's complement one. -/
theorem s8_eq_toInt (x : Byte) : s8 x = x.toInt := by
  unfold s8
  rw [BitVec.toInt_eq_toNat_cond]
  split <;> split <;> omega

theorem sext32_eq_signExtend (x : Byte) : sext32 x = x.signExtend 32 := by
  rw [sext32, s8_eq_toInt, BitVec.signExtend]

theorem zext32_eq_zeroExtend (x : Byte) : zext32 x = x.zeroExtend 32 :=
  BitVec.ofNat_toNat 32 x

/-- Widening a byte keeps its signed value: 32 bits hold every value of `s8`. -/
theorem toInt_sext32 (x : Byte) : (sext32 x).toInt = s8 x := by
  rw [sext32_eq_signExtend, s8_eq_toInt, BitVec.toInt_signExtend_of_le (by decide)]

theorem s8_of_lt {x : Byte} (h : x.toNat < 128) : s8 x = (x.toNat : Int) := if_pos h

theorem s8_of_le {x : Byte} (h : 128 ≤ x.toNat) : s8 x = (x.toNat : Int) - 256 := if_neg h.not_gt

theorem s32_of_lt {v : Word} (h : v.toNat < 2 ^ 31) : s32 v = (v.toNat : Int) := if_pos h

theorem s32_of_le {v : Word} (h : 2 ^ 31 ≤ v.toNat) : s32 v = (v.toNat : Int) - 2 ^ 32 := if_neg h.not_gt

/-- Settles O7: both sides of each bound of R8, and the two promotions as the library's extensions. -/
theorem promotionsToThirtyTwoBits : Obligations.PromotionsToThirtyTwoBits := by
  unfold Obligations.PromotionsToThirtyTwoBits
  refine ⟨fun x => ⟨s8_of_lt, s8_of_le⟩, fun x => ?_, fun v => ⟨s32_of_lt, s32_of_le⟩⟩
  exact ⟨toInt_sext32 x, sext32_eq_signExtend x, zext32_eq_zeroExtend x⟩

end Sys2Proof
end

