-- ==== Sys2Proof/Proofs/RegisterFile.lean ====
section
/-! The register indices of 10_state.md R12, the two accessors of R13 and the reset values of R15: an index reads and writes
exactly the register it names, so two different indices never meet. -/

namespace Sys2Proof.Machine

/-- A register has one index, the one of its encoding (R12). -/
theorem ofIndex_some_iff {i : Nat} {r : Reg} : Reg.ofIndex i = some r ↔ i = r.index.toNat := by
  constructor
  · intro h
    match i, h with
    | 0, h | 1, h | 2, h | 3, h | 4, h | 5, h | 6, h | 7, h => cases h; rfl
  · rintro rfl
    rw [ofIndex_field, ofField_index]

theorem ofIndex_injective {i j : Nat} {r : Reg} (hi : Reg.ofIndex i = some r) (hj : Reg.ofIndex j = some r) : i = j :=
  (ofIndex_some_iff.mp hi).trans (ofIndex_some_iff.mp hj).symm

theorem readReg_of_some {i : Nat} {r : Reg} (h : Reg.ofIndex i = some r) (x : Regs) : readReg x i = .ok (x.get r) := by
  unfold readReg; rw [h]

theorem writeReg_of_some {i : Nat} {r : Reg} (h : Reg.ofIndex i = some r) (x : Regs) (v : Word) :
    writeReg x i v = .ok (x.set r v) := by
  unfold writeReg; rw [h]

theorem readReg_of_le {i : Nat} (h : 8 ≤ i) (x : Regs) : readReg x i = .error (.invalidRegisterIndex i) := by
  unfold readReg; rw [(ofIndex_none_iff i).mpr h]

theorem writeReg_of_le {i : Nat} (h : 8 ≤ i) (x : Regs) (v : Word) :
    writeReg x i v = .error (.invalidRegisterIndex i) := by
  unfold writeReg; rw [(ofIndex_none_iff i).mpr h]

/-- A read completes exactly for the indices 0 to 7 (R12, R13). -/
theorem readReg_ok_iff (x : Regs) (i : Nat) : (∃ v, readReg x i = .ok v) ↔ i < 8 := by
  constructor
  · rintro ⟨v, hv⟩
    by_contra hi
    rw [readReg_of_le (by omega)] at hv
    cases hv
  · intro hi
    obtain ⟨r, hr⟩ := ofIndex_lt hi
    exact ⟨x.get r, readReg_of_some hr x⟩

/-- "A write to one register never changes another" (R13), by index: any other index, valid or not. -/
theorem readReg_set_other {i j : Nat} {r : Reg} (hi : Reg.ofIndex i = some r) (hj : j ≠ i) (x : Regs) (v : Word) :
    readReg (x.set r v) j = readReg x j := by
  by_cases h8 : j < 8
  · obtain ⟨q, hq⟩ := ofIndex_lt h8
    have hqr : q ≠ r := by
      rintro rfl
      exact hj (ofIndex_injective hq hi)
    rw [readReg_of_some hq, readReg_of_some hq, regs_get_set_other x v hqr]
  · rw [readReg_of_le (by omega), readReg_of_le (by omega)]

/-- The reset value of a register by its name (R15). -/
theorem reset_get (r : Reg) : Regs.reset.get r = if r = .ESP then Config.initSp else 0#32 := by
  cases r <;> rfl

/-- Settles O8: the eight reads and the eight fields evaluate; which indices are valid is `readReg_ok_iff`. -/
theorem registerIndexMapping : Obligations.RegisterIndexMapping :=
  ⟨fun _ => ⟨rfl, rfl, rfl, rfl, rfl, rfl, rfl, rfl⟩, readReg_ok_iff, ofIndex_field, rfl⟩

/-- Settles O9: the index written names one register, and every other index names another or none. -/
theorem registerAccessors : Obligations.RegisterAccessors := by
  intro x i v
  refine ⟨fun hi => ?_, fun hi => ⟨readReg_of_le hi x, writeReg_of_le hi x v⟩⟩
  obtain ⟨r, hr⟩ := ofIndex_lt hi
  refine ⟨x.set r v, writeReg_of_some hr x v, ?_, fun j hj => readReg_set_other hr hj x v⟩
  rw [readReg_of_some hr, regs_get_set_self]

/-- Settles O54: `reset_get` at every name, and at the register that an index other than 4 names, which is not ESP. -/
theorem resetRegisterValues : Obligations.ResetRegisterValues := by
  refine ⟨reset_get _, reset_get _, reset_get _, reset_get _, reset_get _, reset_get _, reset_get _, reset_get _,
    fun i hi h4 => ?_, rfl⟩
  obtain ⟨r, hr⟩ := ofIndex_lt hi
  have hsp : r ≠ .ESP := by
    rintro rfl
    exact h4 (ofIndex_some_iff.mp hr)
  exact (readReg_of_some hr _).trans (congrArg Except.ok ((reset_get r).trans (if_neg hsp)))

end Sys2Proof.Machine
end

