-- ==== Sys2Proof/Proofs/ReachableFaults.lean ====
section
/-! Which control state an instruction leaves as it was, and which faults an instruction and a step can end in
(10_state.md R13, R17, 40_addressing_operands.md R54, 60_exceptions.md R90, R91): the statements read `exec_result` off, and for
a step the errors of the decoder are those of its source. -/

namespace Sys2Proof.Machine

/-! ## An instruction -/

/-- What an instruction leaves when it answers a next state: a handler's result, or the halt of an unhandled byte. -/
theorem exec_next {i : Instr} {s t : State} (h : exec i s = .next t) :
    HandlerStep s t ∨ ∃ op, i = .noHandler op ∧ t = s.halt (.unknownOpcode op) := by
  have hx := exec_result i s
  rw [h] at hx
  cases hx with
  | completed hs => exact .inl hs
  | halted op hi => exact .inr ⟨op, hi, rfl⟩

/-- Settles O40: both ends of `exec_next`, the halt of an unhandled byte being the one that writes the status. -/
theorem execKeepsControlState : Obligations.ExecKeepsControlState := by
  intro i s t h
  rcases exec_next h with hs | ⟨op, hi, rfl⟩
  · exact ⟨hs.flags, hs.trace, hs.size, .inl hs.status⟩
  · exact ⟨rfl, rfl, rfl, .inr ⟨op, hi, rfl⟩⟩

/-- The faults that are not defensive, by name (R91). -/
theorem not_defensive_iff (r : FaultReason) : ¬ Defensive r ↔
    (∃ op ext, r = .unimplementedGroupExtension op ext) ∨ (∃ b, r = .unsupportedSIB b) ∨ (∃ a, r = .outOfBounds a) := by
  cases r <;> simp [Defensive]

/-- Settles O41: the ends of `exec_result`, a fault there not being defensive. -/
theorem execAnswersNextOrReachableFault : Obligations.ExecAnswersNextOrReachableFault := by
  intro i s
  have hx := exec_result i s
  generalize exec i s = o at hx ⊢
  cases hx with
  | completed hs => exact .inl ⟨_, rfl⟩
  | halted op hi => exact .inl ⟨_, rfl⟩
  | faulted hr => exact .inr ⟨_, rfl, (not_defensive_iff _).mp hr⟩

/-! ## The decoder's errors -/

/-- Every error that `x` can answer satisfies `P`. -/
def ErrorsIn {ε α : Type} (P : ε → Prop) (x : Except ε α) : Prop := ∀ e, x = .error e → P e

section
variable {ε α β : Type} {P : ε → Prop}

theorem ErrorsIn.ok (a : α) : ErrorsIn P (Except.ok a : Except ε α) := fun _ h => nomatch h

theorem ErrorsIn.pure (a : α) : ErrorsIn P (Pure.pure a : Except ε α) := .ok a

theorem ErrorsIn.bind {x : Except ε α} {g : α → Except ε β} (hx : ErrorsIn P x) (hg : ∀ a, ErrorsIn P (g a)) :
    ErrorsIn P (x >>= g) := by
  intro e h
  rcases except_bind_eq_error.mp h with h | ⟨a, -, h⟩
  · exact hx e h
  · exact hg a e h

/-- A computation followed by one that cannot fail has the errors of the first. -/
theorem ErrorsIn.bindPure {x : Except ε α} (hx : ErrorsIn P x) (g : α → β) : ErrorsIn P (x >>= fun a => Pure.pure (g a)) :=
  hx.bind fun a => .pure (g a)

/-- Every error of the three reads of a decoder's source satisfies `P`. -/
structure SourceErrorsIn (P : ε → Prop) (src : Source ε) : Prop where
  u8          : ∀ k, ErrorsIn P (src.u8 k)
  u32         : ∀ k, ErrorsIn P (src.u32 k)
  operandRead : ∀ d, ErrorsIn P (src.operandRead d)

variable {src : Source ε} (hs : SourceErrorsIn P src)
include hs

theorem decodeSib_errors (mode : BitVec 2) (rm : Field3) (k : Nat) : ErrorsIn P (decodeSib src mode rm k) := by
  unfold decodeSib
  split
  · exact (hs.u8 _).bindPure _
  · exact .pure _

theorem decodeDisp_errors (mode : BitVec 2) (rm : Field3) (k : Nat) : ErrorsIn P (decodeDisp src mode rm k) := by
  unfold decodeDisp
  split
  · exact (hs.u32 _).bindPure _
  · split
    · exact (hs.u8 _).bindPure _
    · exact .pure _

theorem decodeModRM_errors (k : Nat) : ErrorsIn P (decodeModRM src k) :=
  (hs.u8 k).bind fun _ => (decodeSib_errors hs _ _ _).bind fun _ => (decodeDisp_errors hs _ _ _).bindPure _

theorem decodeGroup83Imm_errors (d : Descriptor) : ErrorsIn P (decodeGroup83Imm src d) :=
  (hs.operandRead d).bind fun _ => hs.u8 _

theorem decodeGroup83_errors (d : Descriptor) : ErrorsIn P (decodeGroup83 src d) := by
  unfold decodeGroup83
  split
  · exact (decodeGroup83Imm_errors hs d).bindPure _
  · split
    · exact (decodeGroup83Imm_errors hs d).bindPure _
    · exact .pure _

theorem decodeHandler_errors (h : Handler) : ErrorsIn P (decodeHandler src h) := by
  cases h with
  | push50 r => exact .pure _
  | pop58 r => exact .pure _
  | retC3 => exact .pure _
  | leaveC9 => exact .pure _
  | push68 => exact (hs.u32 1).bindPure _
  | movB8 r => exact (hs.u32 1).bindPure _
  | callE8 => exact (hs.u32 1).bindPure _
  | jmpE9 => exact (hs.u32 1).bindPure _
  | push6A => exact (hs.u8 1).bindPure _
  | jmpEB => exact (hs.u8 1).bindPure _
  | add01 => exact (decodeModRM_errors hs 1).bindPure _
  | mov89 => exact (decodeModRM_errors hs 1).bindPure _
  | mov8B => exact (decodeModRM_errors hs 1).bindPure _
  | groupFF => exact (decodeModRM_errors hs 1).bindPure _
  | group83 => exact (decodeModRM_errors hs 1).bind (decodeGroup83_errors hs)
  | movC7 => exact (decodeModRM_errors hs 1).bind fun _ => (hs.u32 _).bindPure _

/-- The decoder raises no error of its own: each is an error of its source. -/
theorem decodeFrom_errors : ErrorsIn P (decodeFrom src) := by
  refine (hs.u8 0).bind fun op => ?_
  split
  · exact .pure _
  · exact decodeHandler_errors hs _

end

/-! ## A step -/

theorem fetchU8_errors (s : State) (k : Nat) : ErrorsIn (fun r => ¬ Defensive r) (fetchU8 s k) := by
  intro r h
  unfold fetchU8 memReadU8 at h
  split at h
  · cases h
  · cases h; exact id

theorem fetchU32_errors (s : State) (k : Nat) : ErrorsIn (fun r => ¬ Defensive r) (fetchU32 s k) := by
  intro r h
  rw [(memReadU32_error h).2]; exact id

/-- The machine's fetch meets no defensive fault, the operand read before an 83 immediate included (R74, R75). -/
theorem fetchSource_errors (s : State) : SourceErrorsIn (fun r => ¬ Defensive r) (fetchSource s) where
  u8 := fetchU8_errors s
  u32 := fetchU32_errors s
  operandRead _ _ h := readOperand32_error (operandReadFault_error_iff.mp h)

theorem fetchInstr_error {s : State} {r : FaultReason} (h : fetchInstr s = .error r) : ¬ Defensive r :=
  decodeFrom_errors (fetchSource_errors s) r h

theorem exec_fault {i : Instr} {s : State} {f : Fault} (h : exec i s = .fault f) :
    ∃ r, ¬ Defensive r ∧ f = .faulted r s.trace := by
  have hx := exec_result i s
  rw [h] at hx
  cases hx with
  | faulted hr => exact ⟨_, hr, rfl⟩

/-- Settles O50: a step faults in its opcode fetch, in the fetch of the instruction, or in the handler. -/
theorem stepNeverRaisesDefensiveFaults : Obligations.StepNeverRaisesDefensiveFaults := by
  intro s r tr h
  rw [← not_defensive_iff]
  obtain ⟨-, ⟨q, hq, hf⟩ | ⟨op, q, -, hq, hf⟩ | ⟨op, i, -, -, he⟩⟩ := step_fault h
  · cases hf; exact fetchU8_errors s 0 r hq
  · cases hf; exact fetchInstr_error hq
  · obtain ⟨q, hq, hf⟩ := exec_fault he
    cases hf; exact hq

end Sys2Proof.Machine
end

