-- ==== Sys2Proof/Proofs/RegisterForms.lean ====
section
/-! The forms with a register destination (10_state.md R13, 41_data_transfer.md, 43_arithmetic.md): each ends with EIP moved
past the instruction and one register written, and nothing else changed. -/

namespace Sys2Proof.Machine

theorem complete_modifyOperand32_next {s t u : State} {d : Descriptor} {g : Word → Word}
    (h : complete s (modifyOperand32 u d g) = .next t) : ∃ v, writeOperand32 u d v = .ok t := by
  obtain ⟨a, -, hw⟩ := modifyOperand32_ok (complete_next_iff.mp h)
  exact ⟨g a, hw⟩

/-- An instruction with an r/m destination completes as its one operand write does, EIP being past the instruction. -/
theorem exec_rmDestination {i : Instr} {d : Descriptor} {s t : State} (hd : rmDestination i = some d)
    (h : exec i s = .next t) : ∃ v, writeOperand32 (s.advance i.length) d v = .ok t := by
  cases i <;> cases hd
  case addRm32Imm8 => exact complete_modifyOperand32_next h
  case subRm32Imm8 => exact complete_modifyOperand32_next h
  case incRm32 => exact complete_modifyOperand32_next h
  case movRm32Imm32 imm => exact ⟨imm, complete_next_iff.mp h⟩
  case movRm32R32 =>
    obtain ⟨v, -, hw⟩ := except_bind_eq_ok.mp (complete_next_iff.mp h)
    exact ⟨v, hw⟩
  case addRm32R32 =>
    obtain ⟨a, -, h⟩ := except_bind_eq_ok.mp (complete_next_iff.mp h)
    obtain ⟨b, -, hw⟩ := except_bind_eq_ok.mp h
    exact ⟨_, hw⟩

theorem exec_movR32Imm32 {r : Field3} {imm : Word} {s t : State} (h : exec (.movR32Imm32 r imm) s = .next t) :
    t = (s.advance 5).setReg (Reg.ofField r) imm := by
  obtain ⟨x, hx, ht⟩ := except_bind_eq_ok.mp (complete_next_iff.mp h)
  rw [writeReg_field] at hx
  cases hx; cases ht; rfl

theorem exec_movR32Rm32 {d : Descriptor} {s t : State} (h : exec (.movR32Rm32 d) s = .next t) :
    ∃ v, t = (s.advance (1 + d.length)).setReg (Reg.ofField d.regOrOpcode) v := by
  obtain ⟨v, -, ht⟩ := except_bind_eq_ok.mp (complete_next_iff.mp h)
  rw [setRegOperand_eq] at ht
  exact ⟨v, (Except.ok.inj ht).symm⟩

/-- In mode 3 the operand write is a register write (R56). -/
theorem exec_rmDestination_reg {i : Instr} {d : Descriptor} {s t : State} (hd : rmDestination i = some d)
    (hm : d.mode = 3#2) (h : exec i s = .next t) :
    ∃ v, t = (s.advance i.length).setReg (Reg.ofField d.rm) v := by
  obtain ⟨v, hw⟩ := exec_rmDestination hd h
  rw [writeOperand32_reg v hm] at hw
  exact ⟨v, (Except.ok.inj hw).symm⟩

/-- Moving EIP and writing one register leaves the other registers, memory and the control state as they were. -/
theorem advance_setReg_frame (s : State) (n : Nat) (r : Reg) (v : Word) :
    RegsSameExcept [r] s ((s.advance n).setReg r v) ∧ MemSame s.mem ((s.advance n).setReg r v).mem ∧
      ControlSame s ((s.advance n).setReg r v) :=
  ⟨fun _ hq => getReg_setReg_other (s.advance n) v (List.ne_of_not_mem_cons hq), memSame_refl s.mem, rfl, rfl, rfl⟩

/-- Settles O36: every register form is an EIP move and one register write. -/
theorem registerFormsFrame : Obligations.RegisterFormsFrame := by
  rintro i dest s t (⟨r, imm, rfl, rfl⟩ | ⟨d, rfl, rfl⟩ | ⟨d, hd, hm, rfl⟩) h
  · rw [exec_movR32Imm32 h]
    exact advance_setReg_frame s _ _ _
  · obtain ⟨v, rfl⟩ := exec_movR32Rm32 h
    exact advance_setReg_frame s _ _ v
  · obtain ⟨v, rfl⟩ := exec_rmDestination_reg hd hm h
    exact advance_setReg_frame s _ _ v

end Sys2Proof.Machine
end

