-- ==== Sys2Proof/Proofs/FlagsNoninterference.lean ====
section
/-! FLAGS is storage only (10_state.md R17, 43_arithmetic.md R71): setting FLAGS before an operation of the machine is the same
as setting it in the operation's result, from the state's updates up to the step. -/

namespace Sys2Proof.Machine

/-- FLAGS set to `f`, every other field kept. -/
def State.setFlags (f : Word) (s : State) : State := { s with flags := f }

section
variable (f : Word) (s : State)

@[simp] theorem setFlags_status : (s.setFlags f).status = s.status := rfl
@[simp] theorem getReg_setFlags (r : Reg) : (s.setFlags f).getReg r = s.getReg r := rfl

/-! ## Reads do not see FLAGS -/

@[simp] theorem readOperand32_setFlags (d : Descriptor) : readOperand32 (s.setFlags f) d = readOperand32 s d := rfl

theorem fetchU8_setFlags (k : Nat) : fetchU8 (s.setFlags f) k = fetchU8 s k := rfl

theorem fetchInstr_setFlags : fetchInstr (s.setFlags f) = fetchInstr s := rfl

/-! ## Writes commute with setting FLAGS -/

theorem advance_setFlags (n : Nat) : (s.setFlags f).advance n = (s.advance n).setFlags f := rfl

theorem emit_setFlags (op : Byte) : (s.setFlags f).emit op = (s.emit op).setFlags f := rfl

theorem writeOperand32_setFlags (d : Descriptor) (v : Word) :
    writeOperand32 (s.setFlags f) d v = State.setFlags f <$> writeOperand32 s d v := by
  unfold writeOperand32
  split <;> simp only [map_bind] <;> rfl

theorem modifyOperand32_setFlags (d : Descriptor) (g : Word → Word) :
    modifyOperand32 (s.setFlags f) d g = State.setFlags f <$> modifyOperand32 s d g := by
  simp only [modifyOperand32, map_bind, readOperand32_setFlags, writeOperand32_setFlags]

theorem push32_setFlags (v : Word) : push32 (s.setFlags f) v = State.setFlags f <$> push32 s v := by
  unfold push32
  simp only [map_bind]; rfl

theorem pop32_setFlags : pop32 (s.setFlags f) = Prod.map id (State.setFlags f) <$> pop32 s := by
  unfold pop32
  simp only [map_bind]; rfl

theorem postChecks_setFlags : postChecks (s.setFlags f) = (postChecks s).setFlags f := by
  unfold postChecks
  simp only [apply_ite (State.setFlags f)]
  rfl

end

/-! ## The handlers and the step -/

theorem complete_setFlags {f : Word} {s : State} {x y : Except FaultReason State} (h : y = State.setFlags f <$> x) :
    complete (s.setFlags f) y = mapNext (State.setFlags f) (complete s x) := by
  subst h
  cases x <;> rfl

theorem push32_bind_setFlags {f : Word} {s : State} {v : Word} {k : State → Except FaultReason State}
    (hk : ∀ t, k (t.setFlags f) = State.setFlags f <$> k t) :
    (push32 (s.setFlags f) v >>= k) = State.setFlags f <$> (push32 s v >>= k) := by
  simp only [push32_setFlags, bind_map_left, map_bind, hk]

theorem pop32_bind_setFlags {f : Word} {s : State} {k : Word × State → Except FaultReason State}
    (hk : ∀ v t, k (v, t.setFlags f) = State.setFlags f <$> k (v, t)) :
    (pop32 (s.setFlags f) >>= k) = State.setFlags f <$> (pop32 s >>= k) := by
  simp only [pop32_setFlags, bind_map_left, map_bind, Prod.map, id, hk]

/-- Setting FLAGS before an instruction is setting it in the next state (R17). -/
theorem exec_setFlags (f : Word) (i : Instr) (s : State) :
    exec i (s.setFlags f) = mapNext (State.setFlags f) (exec i s) := by
  cases i with
  | addRm32Imm8 d imm => exact complete_setFlags (modifyOperand32_setFlags f (s.advance _) d _)
  | subRm32Imm8 d imm => exact complete_setFlags (modifyOperand32_setFlags f (s.advance _) d _)
  | incRm32 d => exact complete_setFlags (modifyOperand32_setFlags f (s.advance _) d _)
  | movRm32Imm32 d imm => exact complete_setFlags (writeOperand32_setFlags f (s.advance _) d imm)
  | movRm32R32 d =>
    refine complete_setFlags ?_
    simp only [advance_setFlags, regOperand_eq, getReg_setFlags, except_bind_ok, writeOperand32_setFlags]
  | addRm32R32 d =>
    refine complete_setFlags ?_
    simp only [advance_setFlags, readOperand32_setFlags, regOperand_eq, getReg_setFlags, except_bind_ok,
      writeOperand32_setFlags, map_bind]
  | movR32Rm32 d =>
    refine complete_setFlags ?_
    simp only [setRegOperand_eq, map_bind]; rfl
  | movR32Imm32 r imm =>
    refine complete_setFlags ?_
    simp only [writeReg_field, except_bind_ok]; rfl
  | pushR32 r =>
    refine complete_setFlags ?_
    simp only [readReg_field, except_bind_ok]
    exact push32_bind_setFlags fun _ => rfl
  | pushImm32 imm => exact complete_setFlags (push32_bind_setFlags fun _ => rfl)
  | pushImm8 imm => exact complete_setFlags (push32_bind_setFlags fun _ => rfl)
  | callRel32 rel => exact complete_setFlags (push32_bind_setFlags fun _ => rfl)
  | ret => exact complete_setFlags (pop32_bind_setFlags fun _ _ => rfl)
  | popR32 r =>
    refine complete_setFlags (pop32_bind_setFlags fun v t => ?_)
    simp only [writeReg_field, except_bind_ok]; rfl
  | leave =>
    exact complete_setFlags (pop32_bind_setFlags (s := s.setReg .ESP (s.getReg .EBP)) fun _ _ => rfl)
  | jmpRel32 rel => rfl
  | jmpRel8 rel => rfl
  | group83Ext1 d => rfl
  | group83Ext2 d => rfl
  | group83Ext3 d => rfl
  | group83Ext4 d => rfl
  | group83Ext6 d => rfl
  | group83Ext7 d => rfl
  | groupFFExt1 d => rfl
  | groupFFExt2 d => rfl
  | groupFFExt3 d => rfl
  | groupFFExt4 d => rfl
  | groupFFExt5 d => rfl
  | groupFFExt6 d => rfl
  | groupFFExt7 d => rfl
  | noHandler op => rfl

theorem afterHandler_setFlags (f : Word) (o : Host.Outcome State Fault Refusal) :
    afterHandler (mapNext (State.setFlags f) o) = mapNext (State.setFlags f) (afterHandler o) := by
  cases o with
  | next t => exact congrArg Host.Outcome.next (postChecks_setFlags f t)
  | fault r => rfl
  | refused r => rfl

theorem runHandler_setFlags (f : Word) (s : State) :
    runHandler (s.setFlags f) = mapNext (State.setFlags f) (runHandler s) := by
  cases hi : fetchInstr s with
  | ok i =>
    rw [runHandler_fetched hi, runHandler_fetched ((fetchInstr_setFlags f s).trans hi), exec_setFlags,
      afterHandler_setFlags]
  | error r => rw [runHandler_error hi, runHandler_error ((fetchInstr_setFlags f s).trans hi)]; rfl

theorem runningStep_unfetched {s : State} {r : FaultReason} (h : fetchU8 s 0 = .error r) :
    runningStep s = .fault (.faulted r s.trace) := by
  unfold runningStep raise; rw [h]

theorem runningStep_setFlags (f : Word) (s : State) :
    runningStep (s.setFlags f) = mapNext (State.setFlags f) (runningStep s) := by
  cases hop : fetchU8 s 0 with
  | ok op =>
    rw [runningStep_fetched hop, runningStep_fetched ((fetchU8_setFlags f s 0).trans hop), emit_setFlags,
      runHandler_setFlags]
  | error r => rw [runningStep_unfetched hop, runningStep_unfetched ((fetchU8_setFlags f s 0).trans hop)]; rfl

/-- Setting FLAGS before a step is setting it in the next state; a fault and a refusal do not show it (R17). -/
theorem step_setFlags (f : Word) (s : State) : step (s.setFlags f) = mapNext (State.setFlags f) (step s) := by
  unfold step
  rw [setFlags_status]
  cases s.status with
  | running => exact runningStep_setFlags f s
  | halted r => rfl
  | faulted r => rfl

/-- A step keeps FLAGS: its handler does (`exec_next`), and the trace event and the checks do not touch it. -/
theorem step_flags {s t : State} (h : step s = .next t) : t.flags = s.flags := by
  obtain ⟨-, op, i, u, -, -, hx, rfl⟩ := step_next h
  rw [postChecks_flags]
  rcases exec_next hx with hu | ⟨op', -, rfl⟩
  · exact hu.flags
  · rfl

/-- Settles O49: FLAGS commutes with the step and is kept by it; reset and the dump evaluate. -/
theorem flagsAreStorageOnly : Obligations.FlagsAreStorageOnly :=
  ⟨fun s f => step_setFlags f s, fun _ _ => step_flags, rfl, fun _ _ => rfl⟩

end Sys2Proof.Machine
end

