-- ==== Sys2Proof/Proofs/DecodeEncode.lean ====
section
/-! The decoder reads back what the encoder wrote (30_encoding.md R37 to R52), whatever bytes follow: what decoding answers at
an opcode byte with a handler, and at one followed by the bytes of a descriptor, an immediate or both. -/

namespace Sys2Proof

open Machine (except_bind_ok except_pure)

/-- The opcode byte selects the handler, which decodes the bytes after it (R47, R83). -/
theorem decode_handled {op : Byte} {h : Handler} (hh : handlerOf op = some h) (bs : List Byte) :
    decode (op :: bs) = decodeHandler (listSource (op :: bs)) h := by
  have hop : (listSource (op :: bs)).u8 0 = .ok op := rfl
  unfold decode decodeFrom
  rw [hop, except_bind_ok, hh]

theorem decode_unhandled {op : Byte} (h : op ∉ handledOpcodes) (bs : List Byte) :
    decode (op :: bs) = .ok (.noHandler op) := by
  have hop : (listSource (op :: bs)).u8 0 = .ok op := rfl
  unfold decode decodeFrom
  rw [hop, except_bind_ok, (handlerOf_none_iff op).mpr h]; rfl

/-- A handler that begins with `DecodeModRM` goes on with the descriptor whose bytes follow the opcode (R43). -/
theorem decode_modrm {op : Byte} {h : Handler} {g : Source DecodeError → Descriptor → Except DecodeError Instr}
    (hh : handlerOf op = some h) (hg : ∀ src, decodeHandler src h = decodeModRM src 1 >>= g src)
    {d : Descriptor} (hw : d.wf = true) (rest : List Byte) :
    decode (op :: (modrmBytes d ++ rest)) = g (listSource (op :: (modrmBytes d ++ rest))) d := by
  rw [decode_handled hh, hg, decodeModRM_modrmBytes op d rest hw, except_bind_ok]

theorem decode_group83 {d : Descriptor} (hw : d.wf = true) (rest : List Byte) :
    decode (0x83#8 :: (modrmBytes d ++ rest)) = decodeGroup83 (listSource (0x83#8 :: (modrmBytes d ++ rest))) d :=
  decode_modrm (h := .group83) rfl (fun _ => rfl) hw rest

theorem decode_groupFF {d : Descriptor} (hw : d.wf = true) (rest : List Byte) :
    decode (0xFF#8 :: (modrmBytes d ++ rest)) = .ok (decodeGroupFF d) :=
  decode_modrm (h := .groupFF) rfl (fun _ => rfl) hw rest

/-- A handler that takes a dword right after the opcode (R45). -/
theorem decode_dword {op : Byte} {h : Handler} {mk : Word → Instr} (hh : handlerOf op = some h)
    (hg : ∀ src : Source DecodeError, decodeHandler src h = src.u32 1 >>= fun w => pure (mk w)) (w : Word)
    (rest : List Byte) : decode (op :: (bytes32 w ++ rest)) = .ok (mk w) := by
  have hu : (listSource (op :: (bytes32 w ++ rest))).u32 1 = .ok w := listU32_bytes32 [op] rest w 1 rfl
  rw [decode_handled hh, hg, hu, except_bind_ok, except_pure]

/-- The dword after the bytes of a descriptor. -/
theorem listU32_modrm (op : Byte) (d : Descriptor) (w : Word) (rest : List Byte) :
    listU32 (op :: (modrmBytes d ++ (bytes32 w ++ rest))) (1 + d.length) = .ok w :=
  listU32_bytes32 (op :: modrmBytes d) rest w _ (length_opcode_modrm op d).symm

/-- The byte after the bytes of a descriptor. -/
theorem listU8_modrm (op : Byte) (d : Descriptor) (b : Byte) (rest : List Byte) :
    listU8 (op :: (modrmBytes d ++ (b :: rest))) (1 + d.length) = .ok b :=
  listU8_append (op :: modrmBytes d) rest b _ (length_opcode_modrm op d).symm

/-- Decode after encode, for all 31 rows. -/
theorem decode_encode {i : Instr} (h : i.wf = true) (rest : List Byte) : decode (encode i ++ rest) = .ok i := by
  cases i
  case pushR32 r => exact decode_handled (handlerOf_push r) rest
  case popR32 r => exact decode_handled (handlerOf_pop r) rest
  case ret => exact decode_handled (h := .retC3) rfl rest
  case leave => exact decode_handled (h := .leaveC9) rfl rest
  case pushImm8 imm => exact decode_handled (h := .push6A) rfl (imm :: rest)
  case jmpRel8 rel => exact decode_handled (h := .jmpEB) rfl (rel :: rest)
  case pushImm32 imm => exact decode_dword (h := .push68) rfl (fun _ => rfl) imm rest
  case callRel32 rel => exact decode_dword (h := .callE8) rfl (fun _ => rfl) rel rest
  case jmpRel32 rel => exact decode_dword (h := .jmpE9) rfl (fun _ => rfl) rel rest
  case movR32Imm32 r imm => exact decode_dword (handlerOf_movImm r) (fun _ => rfl) imm rest
  case addRm32R32 d => exact decode_modrm (h := .add01) rfl (fun _ => rfl) h rest
  case movRm32R32 d => exact decode_modrm (h := .mov89) rfl (fun _ => rfl) h rest
  case movR32Rm32 d => exact decode_modrm (h := .mov8B) rfl (fun _ => rfl) h rest
  case movRm32Imm32 d imm =>
    simp only [encode, List.cons_append, List.append_assoc]
    refine (decode_modrm (h := .movC7) rfl (fun _ => rfl) h _).trans ?_
    simp only [listSource, listU32_modrm, except_bind_ok, except_pure]
  case addRm32Imm8 d imm =>
    obtain ⟨hw, hx⟩ := (wfExt_iff d _).mp h
    simp only [encode, List.cons_append, List.append_assoc]
    exact (decode_group83 hw _).trans ((decodeGroup83_imm rfl (listU8_modrm _ d imm rest)).1 hx)
  case subRm32Imm8 d imm =>
    obtain ⟨hw, hx⟩ := (wfExt_iff d _).mp h
    simp only [encode, List.cons_append, List.append_assoc]
    exact (decode_group83 hw _).trans ((decodeGroup83_imm rfl (listU8_modrm _ d imm rest)).2 hx)
  case group83Ext1 d | group83Ext2 d | group83Ext3 d | group83Ext4 d | group83Ext6 d | group83Ext7 d =>
    obtain ⟨hw, hx⟩ := (wfExt_iff d _).mp h
    refine (decode_group83 hw rest).trans ?_
    simp [decodeGroup83, group83Fault, opcodeExtension, hx]
  case incRm32 d | groupFFExt1 d | groupFFExt2 d | groupFFExt3 d | groupFFExt4 d | groupFFExt5 d | groupFFExt6 d
      | groupFFExt7 d =>
    obtain ⟨hw, hx⟩ := (wfExt_iff d _).mp h
    refine (decode_groupFF hw rest).trans ?_
    simp [decodeGroupFF, opcodeExtension, hx]
  case noHandler op => exact decode_unhandled (by simpa [Instr.wf] using h) rest

/-- The encoder writes as many bytes as the instruction's length says (R38, R44): the lemmas per instruction, together. -/
theorem length_encode : ∀ i : Instr, (encode i).length = i.length
  | .addRm32R32 d => Laws.EncodedLength.addRm32R32 d
  | .pushR32 r => Laws.EncodedLength.pushR32 r
  | .popR32 r => Laws.EncodedLength.popR32 r
  | .pushImm32 imm => Laws.EncodedLength.pushImm32 imm
  | .pushImm8 imm => Laws.EncodedLength.pushImm8 imm
  | .addRm32Imm8 d imm => Laws.EncodedLength.addRm32Imm8 d imm
  | .subRm32Imm8 d imm => Laws.EncodedLength.subRm32Imm8 d imm
  | .group83Ext1 d => Laws.EncodedLength.group83Ext1 d
  | .group83Ext2 d => Laws.EncodedLength.group83Ext2 d
  | .group83Ext3 d => Laws.EncodedLength.group83Ext3 d
  | .group83Ext4 d => Laws.EncodedLength.group83Ext4 d
  | .group83Ext6 d => Laws.EncodedLength.group83Ext6 d
  | .group83Ext7 d => Laws.EncodedLength.group83Ext7 d
  | .movRm32R32 d => Laws.EncodedLength.movRm32R32 d
  | .movR32Rm32 d => Laws.EncodedLength.movR32Rm32 d
  | .movR32Imm32 r imm => Laws.EncodedLength.movR32Imm32 r imm
  | .ret => Laws.EncodedLength.ret
  | .movRm32Imm32 d imm => Laws.EncodedLength.movRm32Imm32 d imm
  | .leave => Laws.EncodedLength.leave
  | .callRel32 rel => Laws.EncodedLength.callRel32 rel
  | .jmpRel32 rel => Laws.EncodedLength.jmpRel32 rel
  | .jmpRel8 rel => Laws.EncodedLength.jmpRel8 rel
  | .incRm32 d => Laws.EncodedLength.incRm32 d
  | .groupFFExt1 d => Laws.EncodedLength.groupFFExt1 d
  | .groupFFExt2 d => Laws.EncodedLength.groupFFExt2 d
  | .groupFFExt3 d => Laws.EncodedLength.groupFFExt3 d
  | .groupFFExt4 d => Laws.EncodedLength.groupFFExt4 d
  | .groupFFExt5 d => Laws.EncodedLength.groupFFExt5 d
  | .groupFFExt6 d => Laws.EncodedLength.groupFFExt6 d
  | .groupFFExt7 d => Laws.EncodedLength.groupFFExt7 d
  | .noHandler op => Laws.EncodedLength.noHandler op

end Sys2Proof
end

