-- ==== Sys2Proof/Proofs/FetchFaults.lean ====
section
/-! Where memory ends inside an instruction, a step stops at the first byte out of bounds (20_memory.md R31, 45_execution_loop.md
R84, 60_exceptions.md R94): before the opcode without a trace event, after it with the opcode's event. -/

namespace Sys2Proof.Machine

/-- Settles O45: the opcode fetch is the byte read at EIP, and it comes before the trace event. -/
theorem opcodeFetchOutOfBounds : Obligations.OpcodeFetchOutOfBounds := by
  intro s hr hz
  rw [step_of_running hr, runningStep_unfetched ((fetchU8_zero s).trans (memReadU8_out hz))]

/-- A fault met after the opcode fetch ends the step with the opcode's event in the trace. -/
theorem step_of_fetchInstr_error {s : State} {op : Byte} {r : FaultReason} (hr : s.status = .running)
    (hop : fetchU8 s 0 = .ok op) (hi : fetchInstr s = .error r) :
    step s = .fault (.faulted r (s.trace ++ [{ eip := s.eip, opcode := op }])) := by
  rw [step_of_running hr, runningStep_fetched hop, runHandler_error ((fetchInstr_emit s op).trans hi), emit_trace]

/-- Bytes that stand in memory are in bounds. -/
theorem HoldsAt.lt_size {m : Memory} {a : Nat} {bs : List Byte} (h : HoldsAt m a bs) {j : Nat} (hj : j < bs.length) :
    a + j < m.size :=
  ((memReadU8_ok_iff _ _ _).mp (h j bs[j] (List.getElem?_eq_getElem hj))).1

/-- A step at bytes that decode, byte `k` of them being the first at or beyond `MEM_SIZE`, faults at that byte; before the
immediate of an 83 handler if its operand reads. -/
theorem step_cut {s : State} {bs : List Byte} {i : Instr} {k : Nat} (hd : decode bs = .ok i) (hl : i.length = bs.length)
    (hr : s.status = .running) (hk : k < bs.length) (hz : s.mem.size ≤ s.eip.toNat + k) (hlt : s.eip.toNat + k < 2 ^ 32)
    (hm : HoldsAt s.mem s.eip.toNat (bs.take k))
    (ho : ∀ d, operandBeforeImm i = some d → k = 1 + d.length → ∃ v, readOperand32 s d = .ok v) :
    step s = .fault (.faulted (.outOfBounds (s.eip.toNat + k))
      (s.trace ++ (bs.take (min k 1)).map (fun op => { eip := s.eip, opcode := op }))) := by
  cases k with
  | zero => simpa using opcodeFetchOutOfBounds s hr hz
  | succ n =>
    obtain ⟨op, tl, rfl⟩ := List.exists_cons_of_length_pos (Nat.zero_lt_of_lt hk)
    have hop : fetchU8 s 0 = .ok op := (fetchU8_zero s).trans (hm 0 op rfl)
    have hcut := fetchSource_cuts hz hlt hm fun j hj => hm.lt_size (by rw [List.length_take]; omega)
    have hi : fetchInstr s = .error (.outOfBounds (s.eip.toNat + (n + 1))) :=
      decodeFrom_cut hcut hd (hl ▸ hk) fun d hd hn => operandReadFault_ok_iff.mpr (ho d hd hn)
    simpa using step_of_fetchInstr_error hr hop hi

/-- Settles O46: the encoding has the instruction's length, decodes to it, and a step at it is cut where memory ends. -/
theorem instructionsAreFetchedAsTheirBytes : Obligations.InstructionsAreFetchedAsTheirBytes := by
  intro i hw
  refine ⟨(length_encode i).symm, decode_encode hw, fun s k hr hk hz hlt hm ho => ?_⟩
  have hd : decode (encode i) = .ok i := by simpa using decode_encode hw []
  exact step_cut hd (length_encode i).symm hr hk hz hlt hm ho

end Sys2Proof.Machine
end

