-- ==== Sys2Proof/Proofs/MemoryAccess.lean ====
section
/-! The accessors of the one address space (20_memory.md R22 to R28): both sides of the bound for bytes and dwords, and the
canonical form, in which memories that read alike are equal. -/

namespace Sys2Proof.Machine

/-! ## Bytes and dwords -/

theorem memReadU8_put (m : Memory) {a : Nat} (h : a < m.size) (v : Byte) : memReadU8 (m.put a v) a = .ok v :=
  (memReadU8_ok_iff _ _ _).mpr ⟨h, by rw [get_put, if_pos rfl]⟩

theorem memReadU8_put_other (m : Memory) {a b : Nat} (h : b ≠ a) (v : Byte) :
    memReadU8 (m.put a v) b = memReadU8 m b := by
  simp only [memReadU8, put_size, get_put, if_neg h]

/-- Byte `j` of a stored dword reads back (R26). -/
theorem memReadU8_putDword {m : Memory} {a : Nat} (h : a + 3 < m.size) (v : Word) {j : Nat} (hj : j < 4) :
    memReadU8 (putDword m a v) (a + j) = .ok (byteOf v j) :=
  (memReadU8_ok_iff _ _ _).mpr ⟨by rw [putDword_size]; omega, get_putDword_byte m a v j hj⟩

/-- The address at which a dword access faults is its first byte out of bounds (R24, R25). -/
theorem max_eq_first_out {a size i : Nat} (h : size ≤ a + i) (hj : ∀ j, j < i → a + j < size) : max a size = a + i := by
  cases i with
  | zero => exact max_eq_left h
  | succ n =>
    have hlast := hj n (Nat.lt_succ_self n)
    omega

/-- Settles O10: the byte accessors in and out of bounds; a dword that reaches past the end faults at the later of its own
start and the end. -/
theorem byteAccessAndBounds : Obligations.ByteAccessAndBounds := by
  intro m a v
  refine ⟨fun h => ?_, fun h => ⟨memReadU8_out h, memWriteU8_out h v⟩, fun w hlo hhi hz => ?_⟩
  · exact ⟨m.put a v, memWriteU8_in h v, put_size m a v, memReadU8_put m h v, fun b hb => memReadU8_put_other m hb v⟩
  · exact ⟨max w.toNat m.size, le_max_left _ _, max_le hlo hz, le_max_right _ _, memReadU32_out (by omega)⟩

/-- Settles O11: a dword read is its four byte reads, and faults at the first of them out of bounds. -/
theorem dwordReadLittleEndian : Obligations.DwordReadLittleEndian := by
  intro m a
  refine ⟨fun b0 b1 b2 b3 h0 h1 h2 h3 => memReadU32_bytes h0 h1 h2 h3, fun i hi hz hj => ?_⟩
  rw [memReadU32_out (by omega), max_eq_first_out hz hj]

/-- Settles O12: in bounds the write is `putDword`, of which each byte, the dword and the rest of memory are known. -/
theorem dwordWriteReadBack : Obligations.DwordWriteReadBack := by
  intro m a v
  refine ⟨fun h => ?_, fun i hi hz hj => ?_⟩
  · exact ⟨putDword m a.toNat v, memWriteU32_in h v, memReadU32_putDword m a v h, putDword_size m _ v,
      fun i hi => memReadU8_putDword h v hi, fun b hb => memReadU8_putDword_outside m a.toNat b v hb⟩
  · rw [memWriteU32_out (by omega), max_eq_first_out hz hj]

/-! ## The canonical form -/

/-- In a list of rising addresses a cell is what its address reads. -/
theorem cellsGet_of_mem {cs : List Host.Cell} (hs : cs.Pairwise (fun c c' => c.1 < c'.1)) {c : Host.Cell} (h : c ∈ cs) :
    cellsGet cs c.1 = c.2 := by
  induction cs with
  | nil => cases h
  | cons d cs ih =>
    obtain ⟨hd, hcs⟩ := List.pairwise_cons.mp hs
    rcases List.mem_cons.mp h with rfl | h
    · exact if_pos rfl
    · rw [cellsGet, if_neg (hd c h).ne, ih hcs h]

/-- An address that does not read 0x00 is listed. -/
theorem mem_of_cellsGet_ne_zero {cs : List Host.Cell} {a : Nat} (h : cellsGet cs a ≠ 0#8) : (a, cellsGet cs a) ∈ cs := by
  induction cs with
  | nil => exact absurd rfl h
  | cons d cs ih =>
    rw [cellsGet] at h ⊢
    split at h
    · next hd => simp [← hd]
    · next hd =>
      rw [if_neg hd]
      exact List.mem_cons_of_mem d (ih h)

/-- The cells of a memory in canonical form are its bytes other than 0x00. -/
theorem mem_cells_iff {m : Memory} (hm : m.wf) (c : Host.Cell) : c ∈ m.cells ↔ c.2 ≠ 0#8 ∧ m.get c.1 = c.2 := by
  obtain ⟨hs, hc, -⟩ := hm
  constructor
  · exact fun h => ⟨(hc c h).1, cellsGet_of_mem hs h⟩
  · rintro ⟨hne, hg⟩
    have hmem := mem_of_cellsGet_ne_zero (cs := m.cells) (a := c.1) (hg.trans_ne hne)
    rwa [show cellsGet m.cells c.1 = c.2 from hg] at hmem

/-- Beyond `MEM_SIZE` a memory in canonical form lists nothing. -/
theorem get_beyond {m : Memory} (hm : m.wf) {a : Nat} (h : m.size ≤ a) : m.get a = 0#8 := by
  obtain ⟨-, hc, -⟩ := hm
  by_contra hne
  exact absurd (hc _ (mem_of_cellsGet_ne_zero hne)).2 (not_lt.mpr h)

theorem get_eq_of_memSame {m m' : Memory} (hm : m.wf) (hm' : m'.wf) (hz : m.size = m'.size) (h : MemSame m m')
    (a : Nat) : m.get a = m'.get a := by
  by_cases ha : a < m.size
  · have hr := h a
    rw [memReadU8_in (hz ▸ ha), memReadU8_in ha] at hr
    exact (Except.ok.inj hr).symm
  · rw [get_beyond hm (by omega), get_beyond hm' (by omega)]

/-- Two lists of rising addresses with the same cells are equal. -/
theorem cells_ext {cs cs' : List Host.Cell} (hs : cs.Pairwise (fun c c' => c.1 < c'.1))
    (hs' : cs'.Pairwise (fun c c' => c.1 < c'.1)) (h : ∀ c, c ∈ cs ↔ c ∈ cs') : cs = cs' := by
  have nodup : ∀ {l : List Host.Cell}, l.Pairwise (fun c c' => c.1 < c'.1) → l.Nodup :=
    fun hl => hl.imp fun hlt he => hlt.ne (congrArg Prod.fst he)
  have hp : cs.Perm cs' := (List.perm_ext_iff_of_nodup (nodup hs) (nodup hs')).mpr h
  exact hp.eq_of_pairwise (fun _ _ _ _ hlt hgt => absurd hgt hlt.asymm) hs hs'

/-- Memories in canonical form of one size that read alike are equal (log entry 16). -/
theorem memory_ext {m m' : Memory} (hm : m.wf) (hm' : m'.wf) (hz : m.size = m'.size) (h : MemSame m m') : m = m' := by
  have ⟨hs, _, _⟩ := hm
  have ⟨hs', _, _⟩ := hm'
  have hcells : m.cells = m'.cells := cells_ext hs hs' fun c => by
    rw [mem_cells_iff hm, mem_cells_iff hm', get_eq_of_memSame hm hm' hz h]
  cases m; cases m'
  exact congrArg₂ Memory.mk hz hcells

/-- Settles O13: both writes keep the canonical form, and `memory_ext`. -/
theorem memoryCanonicalForm : Obligations.MemoryCanonicalForm :=
  ⟨fun _ _ _ _ => memWriteU8_wf, fun _ _ _ _ => memWriteU32_wf, fun _ _ => memory_ext⟩

end Sys2Proof.Machine
end

