-- ==== Sys2Proof/Proofs/Stores.lean ====
section
/-! What an instruction does to memory (20_memory.md R29, R35, 40_addressing_operands.md R56): the dword of its rule at its
store address, and nothing where it has none. -/

namespace Sys2Proof.Machine

/-! ## The forms with an r/m destination -/

/-- An instruction with an r/m destination has a store address where its descriptor has an effective address. -/
theorem storeAddress_rm_iff {i : Instr} {d : Descriptor} (hd : rmDestination i = some d) (s : State) (a : Word) :
    storeAddress i s = some a ↔ effectiveAddress s.regs d = .ok a := by
  rw [storeAddress_rm hd]
  cases effectiveAddress s.regs d <;> simp [Except.toOption]

theorem readOperand32_eq_dwordAt {s : State} {d : Descriptor} {a v : Word} (ha : effectiveAddress s.regs d = .ok a)
    (h : readOperand32 s d = .ok v) : v = dwordAt s.mem a.toNat :=
  (memReadU32_ok ((readOperand32_mem ha).symm.trans h)).2

/-- A read-modify-write stores the function of the dword that stood at the address (R59). -/
theorem complete_modifyOperand32_dword {s t : State} {n : Nat} {d : Descriptor} {g : Word → Word}
    (h : complete s (modifyOperand32 (s.advance n) d g) = .next t) :
    ∃ v, writeOperand32 (s.advance n) d v = .ok t ∧
      ∀ a, effectiveAddress s.regs d = .ok a → g (dwordAt s.mem a.toNat) = v := by
  obtain ⟨old, hr, hw⟩ := modifyOperand32_ok (complete_next_iff.mp h)
  exact ⟨g old, hw, fun a ha => congrArg g (readOperand32_eq_dwordAt (s := s) ha hr).symm⟩

/-- `exec_rmDestination` with the dword written: that of the instruction's own rule. -/
theorem exec_rmDestination_dword {i : Instr} {d : Descriptor} {s t : State} (hd : rmDestination i = some d)
    (h : exec i s = .next t) :
    ∃ v, writeOperand32 (s.advance i.length) d v = .ok t ∧
      ∀ a, effectiveAddress s.regs d = .ok a → storedDword i s (dwordAt s.mem a.toNat) = some v := by
  cases i <;> cases hd
  case addRm32Imm8 imm =>
    obtain ⟨v, hw, hv⟩ := complete_modifyOperand32_dword h
    exact ⟨v, hw, fun a ha => congrArg some (sext32_eq_signExtend imm ▸ hv a ha)⟩
  case subRm32Imm8 imm =>
    obtain ⟨v, hw, hv⟩ := complete_modifyOperand32_dword h
    exact ⟨v, hw, fun a ha => congrArg some (sext32_eq_signExtend imm ▸ hv a ha)⟩
  case incRm32 =>
    obtain ⟨v, hw, hv⟩ := complete_modifyOperand32_dword h
    exact ⟨v, hw, fun a ha => congrArg some (hv a ha)⟩
  case movRm32Imm32 imm => exact ⟨imm, complete_next_iff.mp h, fun _ _ => rfl⟩
  case movRm32R32 =>
    obtain ⟨v, hv, hw⟩ := except_bind_eq_ok.mp (complete_next_iff.mp h)
    rw [regOperand_eq] at hv
    exact ⟨v, hw, fun _ _ => congrArg some (Except.ok.inj hv)⟩
  case addRm32R32 =>
    obtain ⟨old, hr, h⟩ := except_bind_eq_ok.mp (complete_next_iff.mp h)
    obtain ⟨b, hb, hw⟩ := except_bind_eq_ok.mp h
    rw [regOperand_eq] at hb
    cases hb
    exact ⟨_, hw, fun a ha => by rw [← readOperand32_eq_dwordAt ha hr]; rfl⟩

/-- In a memory form the operand write is a dword store at the effective address (R56). -/
theorem exec_rmDestination_mem {i : Instr} {d : Descriptor} {s t : State} (hd : rmDestination i = some d)
    (hm : d.mode ≠ 3#2) (h : exec i s = .next t) :
    ∃ a v, effectiveAddress s.regs d = .ok a ∧ a.toNat + 3 < s.mem.size ∧
      storedDword i s (dwordAt s.mem a.toNat) = some v ∧
      t = (s.advance i.length).setMem (putDword s.mem a.toNat v) := by
  obtain ⟨v, hw, hv⟩ := exec_rmDestination_dword hd h
  rcases writeOperand32_ok hw with ⟨h3, -⟩ | ⟨a, ha, hb, ht⟩
  · exact absurd h3 hm
  · exact ⟨a, v, ha, hb, hv a ha, ht⟩

/-- Settles O37: every memory form is an EIP move and one dword store, at the address its descriptor gives. -/
theorem memoryFormsFrame : Obligations.MemoryFormsFrame := by
  intro i d s t hd hm h
  obtain ⟨a, v, ha, -, -, rfl⟩ := exec_rmDestination_mem hd hm h
  refine ⟨⟨a, ha⟩, fun a' ha' b hb => ?_, rfl, rfl, rfl, rfl⟩
  cases ha.symm.trans ha'
  exact memReadU8_putDword_outside s.mem a.toNat b v hb

/-! ## The pushes and the pops -/

/-- An instruction that pushes and then moves EIP has stored the value at the lowered ESP (R64). -/
theorem complete_push32_next {s t : State} {v : Word} {g : State → State}
    (h : complete s (push32 s v >>= fun u => pure (g u)) = .next t) :
    (s.getReg .ESP - 4#32).toNat + 3 < s.mem.size ∧
      t = g ((s.setReg .ESP (s.getReg .ESP - 4#32)).setMem (putDword s.mem (s.getReg .ESP - 4#32).toNat v)) := by
  obtain ⟨u, hu, ht⟩ := except_bind_eq_ok.mp (complete_next_iff.mp h)
  obtain ⟨hb, rfl⟩ := push32_ok hu
  exact ⟨hb, (Except.ok.inj ht).symm⟩

/-- An instruction that pops goes on with the dword at ESP and ESP raised (R65). -/
theorem complete_pop32_next {s s1 t : State} {k : Word × State → Except FaultReason State}
    (h : complete s (pop32 s1 >>= k) = .next t) :
    ∃ v, memReadU32 s1.mem (s1.getReg .ESP) = .ok v ∧ k (v, s1.setReg .ESP (s1.getReg .ESP + 4#32)) = .ok t := by
  obtain ⟨⟨v, u⟩, hp, hk⟩ := except_bind_eq_ok.mp (complete_next_iff.mp h)
  obtain ⟨hv, rfl⟩ := pop32_ok hp
  exact ⟨v, hv, hk⟩

/-! ## Every instruction -/

/-- An instruction with a store address stores the dword of its rule there, the old dword being in bounds. -/
theorem exec_store {i : Instr} {s t : State} {a : Word} (h : exec i s = .next t) (ha : storeAddress i s = some a) :
    ∃ v, a.toNat + 3 < s.mem.size ∧ storedDword i s (dwordAt s.mem a.toNat) = some v ∧
      t.mem = putDword s.mem a.toNat v := by
  cases hd : rmDestination i with
  | some d =>
    have hea := (storeAddress_rm_iff hd s a).mp ha
    obtain ⟨a', v, ha', hb, hv, rfl⟩ := exec_rmDestination_mem hd (effectiveAddress_ok_mode hea) h
    cases hea.symm.trans ha'
    exact ⟨v, hb, hv, rfl⟩
  | none =>
    cases i <;> cases hd <;> cases ha
    case none.pushR32 r =>
      rw [exec, execPushR32, readReg_field, except_bind_ok] at h
      obtain ⟨hb, rfl⟩ := complete_push32_next h
      exact ⟨_, hb, rfl, rfl⟩
    case none.pushImm32 imm =>
      obtain ⟨hb, rfl⟩ := complete_push32_next h
      exact ⟨imm, hb, rfl, rfl⟩
    case none.pushImm8 imm =>
      obtain ⟨hb, rfl⟩ := complete_push32_next h
      exact ⟨zext32 imm, hb, congrArg some (zext32_eq_zeroExtend imm).symm, rfl⟩
    case none.callRel32 rel =>
      obtain ⟨hb, rfl⟩ := complete_push32_next h
      exact ⟨_, hb, rfl, rfl⟩

/-- An instruction without a store address leaves memory as it was. -/
theorem exec_noStore {i : Instr} {s t : State} (h : exec i s = .next t) (ha : storeAddress i s = none) :
    t.mem = s.mem := by
  cases hd : rmDestination i with
  | some d =>
    obtain ⟨v, hw⟩ := exec_rmDestination hd h
    rcases writeOperand32_ok hw with ⟨-, rfl⟩ | ⟨a, he, -, -⟩
    · rfl
    · cases ha.symm.trans ((storeAddress_rm_iff hd s a).mpr he)
  | none =>
    cases i <;> cases hd <;> cases ha
    case none.movR32Imm32 => rw [exec_movR32Imm32 h]; rfl
    case none.movR32Rm32 => obtain ⟨v, rfl⟩ := exec_movR32Rm32 h; rfl
    case none.popR32 r =>
      obtain ⟨v, -, hk⟩ := complete_pop32_next h
      dsimp only at hk
      rw [writeReg_field] at hk
      cases hk; rfl
    case none.ret => obtain ⟨v, -, hk⟩ := complete_pop32_next h; cases hk; rfl
    case none.leave => obtain ⟨v, -, hk⟩ := complete_pop32_next h; cases hk; rfl
    case none.jmpRel32 | none.jmpRel8 | none.noHandler => cases h; rfl
    all_goals cases h

/-- Settles O57: the stored dword is the rule's, and a fetch of unchanged bytes reads it. -/
theorem storeSeenByNextFetch : Obligations.StoreSeenByNextFetch := by
  intro i s t h
  refine ⟨fun hn => ?_, fun a ha => ?_⟩
  · rw [exec_noStore h hn]
    exact memSame_refl s.mem
  · obtain ⟨v, hb, hv, hm⟩ := exec_store h ha
    refine ⟨dwordAt s.mem a.toNat, v, memReadU32_in hb, hv, ?_, fun u k hu => ?_⟩
    · rw [hm]; exact memReadU32_putDword s.mem a v hb
    · exact fetch_sees_putDword hb u k (hm ▸ hu)

end Sys2Proof.Machine
end

