-- ==== Sys2Proof/Proofs/Invariant.lean ====
section
/-! The invariant of Safety.lean, kept by a step and so along every run from reset (20_memory.md R22, 45_execution_loop.md R85
to R88, 70_reset_and_hazards.md R102). A handler that completes is followed by the checks that make the status fit EIP; the
halt of an unhandled byte has that byte at EIP, since the decoder answers `noHandler` for no other reason. -/

namespace Sys2Proof.Machine

/-! ## The unhandled byte -/

theorem group83Fault_ne_noHandler (d : Descriptor) (op : Byte) : group83Fault d ≠ .noHandler op := by
  unfold group83Fault
  repeat' split
  all_goals exact nofun

theorem decodeGroupFF_ne_noHandler (d : Descriptor) (op : Byte) : decodeGroupFF d ≠ .noHandler op := by
  unfold decodeGroupFF
  repeat' split
  all_goals exact nofun

/-- A handler's bytes decode to a row of that handler, never to the row of unhandled bytes. -/
theorem decodeHandler_ne_noHandler {ε : Type} (src : Source ε) (h : Handler) (op : Byte) :
    decodeHandler src h ≠ .ok (.noHandler op) := by
  intro hk
  cases h <;> simp only [decodeHandler] at hk
  case push50 | pop58 | retC3 | leaveC9 => cases hk
  case push68 | push6A | movB8 | callE8 | jmpE9 | jmpEB | add01 | mov89 | mov8B =>
    obtain ⟨x, -, hk⟩ := except_bind_eq_ok.mp hk
    cases hk
  case movC7 =>
    obtain ⟨d, -, hk⟩ := except_bind_eq_ok.mp hk
    obtain ⟨w, -, hk⟩ := except_bind_eq_ok.mp hk
    cases hk
  case groupFF =>
    obtain ⟨d, -, hk⟩ := except_bind_eq_ok.mp hk
    exact decodeGroupFF_ne_noHandler d op (Except.ok.inj hk)
  case group83 =>
    obtain ⟨d, -, hk⟩ := except_bind_eq_ok.mp hk
    rcases decodeGroup83_ok hk with ⟨imm, -, -, ⟨-, hi⟩ | ⟨-, hi⟩⟩ | ⟨-, -, hi⟩
    · cases hi
    · cases hi
    · exact group83Fault_ne_noHandler d op hi.symm

/-- The decoder answers `noHandler` only for an opcode byte without a handler (R47, R51). -/
theorem decodeFrom_noHandler {ε : Type} {src : Source ε} {op : Byte} (h : decodeFrom src = .ok (.noHandler op)) :
    src.u8 0 = .ok op ∧ op ∉ handledOpcodes := by
  obtain ⟨b, hb, h⟩ := except_bind_eq_ok.mp h
  split at h
  · next hn =>
    cases h
    exact ⟨hb, (handlerOf_none_iff op).mp hn⟩
  · exact absurd h (decodeHandler_ne_noHandler src _ op)

/-! ## One step -/

/-- A completed instruction followed by the checks of R87 meets the invariant. -/
theorem postChecks_inv {t : State} (hw : t.mem.wf) (hz : Config.loadBase.toNat ≤ t.mem.size) (hr : t.status = .running) :
    Inv (postChecks t) where
  memWf := by rw [postChecks_mem]; exact hw
  memSize := by rw [postChecks_mem]; exact hz
  statusOk := postChecks_fits hr

/-- The halt of an unhandled byte at EIP keeps the invariant (R85). -/
theorem halt_unknownOpcode_inv {s : State} {op : Byte} (hs : Inv s) (h : fetchInstr s = .ok (.noHandler op)) :
    Inv (s.halt (.unknownOpcode op)) where
  memWf := hs.memWf
  memSize := hs.memSize
  statusOk := by
    obtain ⟨hop, hn⟩ := decodeFrom_noHandler h
    exact ⟨hn, (fetchU8_zero s).symm.trans hop⟩

/-- Settles O51: a handler that completes is followed by the checks, the halt of an unhandled byte is not. -/
theorem stepKeepsInvariant : Obligations.StepKeepsInvariant := by
  intro s t hs h
  obtain ⟨hr, op, i, u, -, hi, hx, rfl⟩ := step_next h
  have hs' : Inv (s.emit op) := ⟨hs.memWf, hs.memSize, hs.statusOk⟩
  rcases exec_next hx with hu | ⟨op', rfl, rfl⟩
  · exact postChecks_inv (hu.wf hs.memWf) (hs.memSize.trans_eq hu.size.symm) (hu.status.trans hr)
  · rw [postChecks_of_not_running (by simp)]
    exact halt_unknownOpcode_inv hs' hi

/-- A step keeps `MEM_SIZE` and adds one event to the trace (R22, R99). -/
theorem step_size_trace {s t : State} (h : step s = .next t) :
    t.mem.size = s.mem.size ∧ ∃ op, t.trace = s.trace ++ [{ eip := s.eip, opcode := op }] := by
  obtain ⟨-, op, i, u, -, -, hx, rfl⟩ := step_next h
  obtain ⟨-, htr, hz, -⟩ := execKeepsControlState i _ u hx
  exact ⟨(congrArg Memory.size (postChecks_mem u)).trans hz, op, (postChecks_trace u).trans htr⟩

/-! ## Runs -/

/-- What every step keeps holds of every state of a run from a state where it holds (R88). -/
theorem reaches_preserves {P : State → Prop} (hstep : ∀ t u, P t → step t = .next u → P u) {s t : State} (hs : P s)
    (h : Reaches s t) : P t := by
  induction h with
  | refl => exact hs
  | step _ hu ih => exact hstep _ _ ih hu

/-- What the reset procedure gives the fields that the invariant reads (R102). -/
theorem boot_fields {loadBase initSp : Word} {image : List Byte} {s : State} (h : boot loadBase initSp image = some s) :
    s.mem.size = loadBase.toNat + image.length ∧ s.eip = loadBase ∧ s.flags = 0#32 ∧ s.status = .running := by
  unfold boot at h
  split at h
  · cases h
    exact ⟨rfl, rfl, rfl, rfl⟩
  · cases h

/-- The reset state of every image meets the invariant (R102). -/
theorem bootImage_inv {image : List Byte} {s : State} (h : bootImage image = some s) : Inv s where
  memWf := boot_wf h
  memSize := by
    obtain ⟨hz, -⟩ := boot_fields h
    omega
  statusOk := by
    obtain ⟨-, he, -, hr⟩ := boot_fields h
    have hfits : Config.loadBase ≠ 0#32 ∧ Config.loadBase ≤ Config.safetyBound := by decide
    unfold StatusFits
    rwa [hr, he]

/-- Settles O53: each part holds at reset and every step keeps it. -/
theorem everyRunKeepsInvariant : Obligations.EveryRunKeepsInvariant := by
  intro image s t hs h
  obtain ⟨hz, -, hf, -⟩ := boot_fields hs
  refine ⟨?_, ?_, ?_, ?_⟩
  · exact reaches_preserves stepKeepsInvariant (bootImage_inv hs) h
  · exact reaches_preserves (P := (·.mem.size = _)) (fun _ _ ht hu => (step_size_trace hu).1.trans ht) hz h
  · exact reaches_preserves (P := (·.flags = _)) (fun _ _ ht hu => (step_flags hu).trans ht) hf h
  · refine reaches_preserves (P := (s.trace <+: ·.trace)) (fun t u ht hu => ?_) List.prefix_rfl h
    obtain ⟨-, op, htr⟩ := step_size_trace hu
    exact htr ▸ ht.trans (List.prefix_append _ _)

end Sys2Proof.Machine
end

