-- ==== Sys2Proof/Proofs/DescriptorTable.lean ====
section
/-! Which bytes a ModRM descriptor has, and where (30_encoding.md R41 to R44): a well-formed descriptor's SIB byte and
displacement, and so its length, are determined by its mode and rm; `DecodeModRM` answers well-formed descriptors only. -/

namespace Sys2Proof

/-! ## The conditions of R41 and R42 on mode and rm -/

theorem needsSib_iff (mode : BitVec 2) (rm : Field3) : needsSib mode rm = true ↔ mode ≠ 3#2 ∧ rm = 4#3 := by
  simp [needsSib]

theorem needsDisp32_iff (mode : BitVec 2) (rm : Field3) :
    needsDisp32 mode rm = true ↔ mode = 2#2 ∨ (mode = 0#2 ∧ rm = 5#3) := by
  simp [needsDisp32]

theorem needsDisp8_iff (mode : BitVec 2) : needsDisp8 mode = true ↔ mode = 1#2 := by
  simp [needsDisp8]

/-- The cases of R42 that are left when neither displacement is needed. -/
theorem needsNoDisp_iff (mode : BitVec 2) (rm : Field3) :
    (needsDisp32 mode rm = false ∧ needsDisp8 mode = false) ↔ mode = 3#2 ∨ (mode = 0#2 ∧ rm ≠ 5#3) := by
  revert mode rm; decide

/-! ## Well-formed descriptors -/

theorem wf_sib_iff {d : Descriptor} (h : d.wf = true) : d.sib.isSome = true ↔ d.mode ≠ 3#2 ∧ d.rm = 4#3 := by
  rw [((wf_iff d).mp h).1, needsSib_iff]

/-- The three forms of a displacement, each with the condition under which R42 chooses it. -/
theorem wf_disp_cases {d : Descriptor} (h : d.wf = true) :
    (needsDisp32 d.mode d.rm = true ∧ needsDisp8 d.mode = false ∧ ∃ w, d.disp = .disp32 w) ∨
      (needsDisp32 d.mode d.rm = false ∧ needsDisp8 d.mode = true ∧ ∃ b, d.disp = .disp8 b) ∨
      (needsDisp32 d.mode d.rm = false ∧ needsDisp8 d.mode = false ∧ d.disp = .absent) := by
  have hd := ((wf_iff d).mp h).2
  cases he : d.disp with
  | absent =>
    rw [he] at hd
    have hn : needsDisp32 d.mode d.rm = false ∧ needsDisp8 d.mode = false := by simpa [dispFits] using hd
    exact .inr (.inr ⟨hn.1, hn.2, rfl⟩)
  | disp8 b =>
    rw [he] at hd
    exact .inr (.inl ⟨needsDisp8_not_32 hd, hd, b, rfl⟩)
  | disp32 w =>
    rw [he] at hd
    have h8 : needsDisp8 d.mode = false := by
      by_contra hn
      rw [Bool.not_eq_false] at hn
      exact absurd hd (by simp [dispFits, needsDisp8_not_32 hn])
    exact .inl ⟨hd, h8, w, rfl⟩

theorem wf_disp32_iff {d : Descriptor} (h : d.wf = true) :
    (∃ w, d.disp = .disp32 w) ↔ d.mode = 2#2 ∨ (d.mode = 0#2 ∧ d.rm = 5#3) := by
  rw [← needsDisp32_iff]
  rcases wf_disp_cases h with ⟨h32, -, w, e⟩ | ⟨h32, -, b, e⟩ | ⟨h32, -, e⟩ <;> simp [h32, e]

theorem wf_disp8_iff {d : Descriptor} (h : d.wf = true) : (∃ b, d.disp = .disp8 b) ↔ d.mode = 1#2 := by
  rw [← needsDisp8_iff]
  rcases wf_disp_cases h with ⟨-, h8, w, e⟩ | ⟨-, h8, b, e⟩ | ⟨-, h8, e⟩ <;> simp [h8, e]

theorem wf_absent_iff {d : Descriptor} (h : d.wf = true) :
    d.disp = .absent ↔ d.mode = 3#2 ∨ (d.mode = 0#2 ∧ d.rm ≠ 5#3) := by
  rw [← needsNoDisp_iff]
  rcases wf_disp_cases h with ⟨h32, -, w, e⟩ | ⟨-, h8, b, e⟩ | ⟨h32, h8, e⟩
  · simp [h32, e]
  · simp [h8, e]
  · simp [h32, h8, e]

/-- `L` as R41 and R42 give it: the ModRM byte, the SIB byte and the displacement bytes. -/
theorem wf_length {d : Descriptor} (h : d.wf = true) :
    d.length = 1 + (if needsSib d.mode d.rm then 1 else 0) +
      (if needsDisp32 d.mode d.rm then 4 else if needsDisp8 d.mode then 1 else 0) := by
  have hs : sibLength d.sib = if needsSib d.mode d.rm then 1 else 0 := by rw [sibLength, ((wf_iff d).mp h).1]
  have hd : dispLength d.disp = if needsDisp32 d.mode d.rm then 4 else if needsDisp8 d.mode then 1 else 0 := by
    rcases wf_disp_cases h with ⟨h32, -, w, e⟩ | ⟨h32, h8, b, e⟩ | ⟨h32, h8, e⟩ <;> simp [dispLength, *]
  rw [Descriptor.length, hs, hd]

/-- Settles O4: the descriptor is well-formed, so its length is a function of mode and rm, which the table lists. -/
theorem modRMLengthByModeAndRm : Obligations.ModRMLengthByModeAndRm := by
  intro bs k d h
  rw [wf_length (decodeModRM_wf h)]
  generalize d.mode = mode, d.rm = rm
  revert mode rm; decide

/-! ## The places of the bytes that `DecodeModRM` reads -/

section Source
variable {ε : Type} {src : Source ε} {k : Nat} {d : Descriptor}

/-- The SIB byte is the one right after the ModRM byte (R43). -/
theorem decodeModRM_sib_at (h : decodeModRM src k = .ok d) {b : Byte} (hb : d.sib = some b) :
    src.u8 (k + 1) = .ok b := by
  obtain ⟨-, -, -, -, -, hs, -⟩ := decodeModRM_ok h
  rcases decodeSib_ok hs with ⟨-, he⟩ | ⟨-, b', hu, he⟩
  · cases he.symm.trans hb
  · cases he.symm.trans hb
    exact hu

/-- An 8-bit displacement is the last byte of the descriptor (R43). -/
theorem decodeModRM_disp8_at (h : decodeModRM src k = .ok d) {b : Byte} (hb : d.disp = .disp8 b) :
    src.u8 (k + d.length - 1) = .ok b := by
  obtain ⟨-, -, -, -, -, -, hd⟩ := decodeModRM_ok h
  have hk : k + d.length - 1 = k + 1 + sibLength d.sib := by
    simp only [Descriptor.length, hb, dispLength]
    omega
  rcases decodeDisp_ok hd with ⟨-, w, -, he⟩ | ⟨-, -, b', hu, he⟩ | ⟨-, -, he⟩
  · cases he.symm.trans hb
  · cases he.symm.trans hb
    rw [hk, hu]
  · cases he.symm.trans hb

/-- A 32-bit displacement is the last four bytes of the descriptor (R43). -/
theorem decodeModRM_disp32_at (h : decodeModRM src k = .ok d) {w : Word} (hw : d.disp = .disp32 w) :
    src.u32 (k + d.length - 4) = .ok w := by
  obtain ⟨-, -, -, -, -, -, hd⟩ := decodeModRM_ok h
  have hk : k + d.length - 4 = k + 1 + sibLength d.sib := by
    simp only [Descriptor.length, hw, dispLength]
    omega
  rcases decodeDisp_ok hd with ⟨-, w', hu, he⟩ | ⟨-, -, b, -, he⟩ | ⟨-, -, he⟩
  · cases he.symm.trans hw
    rw [hk, hu]
  · cases he.symm.trans hw
  · cases he.symm.trans hw

end Source

/-- Settles O5: presence follows from well-formedness, the values from the places that `DecodeModRM` reads. -/
theorem sibAndDisplacementPresence : Obligations.SibAndDisplacementPresence := by
  intro bs k d h
  have hw := decodeModRM_wf h
  refine ⟨wf_sib_iff hw, fun b hb => ?_, wf_disp32_iff hw, wf_disp8_iff hw, wf_absent_iff hw,
    fun b hb => ?_, fun w he => ?_⟩
  · exact (listU8_ok_iff bs _ b).mp (decodeModRM_sib_at h hb)
  · exact (listU8_ok_iff bs _ b).mp (decodeModRM_disp8_at h hb)
  · have hl : 5 ≤ d.length := by
      simp only [Descriptor.length, he, dispLength]
      omega
    obtain ⟨b0, b1, b2, b3, h0, h1, h2, h3, e⟩ := (listU32_ok_iff bs _ w).mp (decodeModRM_disp32_at h he)
    rw [show k + d.length - 4 + 1 = k + d.length - 3 by omega] at h1
    rw [show k + d.length - 4 + 2 = k + d.length - 2 by omega] at h2
    rw [show k + d.length - 4 + 3 = k + d.length - 1 by omega] at h3
    exact ⟨b0, b1, b2, b3, h0, h1, h2, h3, e⟩

end Sys2Proof
end

