-- ==== Sys2Proof/Proofs/OpcodeMap.lean ====
section
/-! The primary opcode map (30_encoding.md R39, R47): the rows 50+r, 58+r and B8+r are the blocks of eight opcodes with the same
high five bits, and a byte outside the map is the one case in which the decoder answers `noHandler`. -/

namespace Sys2Proof

open Machine (decodeFrom_noHandler)

theorem toNat_row_append (row : BitVec 5) (r : Field3) : (row ++ r).toNat = 8 * row.toNat + r.toNat := by
  rw [BitVec.toNat_append, ← Nat.shiftLeft_add_eq_or_of_lt r.isLt, Nat.shiftLeft_eq, Nat.mul_comm]

/-- The opcodes with the high bits `row` are the eight from `row` with register 0 to `row` with register 7 (R39). -/
theorem extractRow_eq_iff (op : Byte) (row : BitVec 5) :
    op.extractLsb' 3 5 = row ↔ row ++ 0#3 ≤ op ∧ op ≤ row ++ 7#3 := by
  rw [BitVec.le_def, BitVec.le_def, toNat_row_append, toNat_row_append, ← BitVec.toNat_inj, BitVec.extractLsb'_toNat,
    Nat.shiftRight_eq_div_pow, BitVec.toNat_ofNat, BitVec.toNat_ofNat]
  omega

/-- The low three bits of an opcode are `opcode - base` for a base whose low bits are zero (R39). -/
theorem extractRegister_eq_sub (op : Byte) (row : BitVec 5) :
    op.extractLsb' 0 3 = (op - (row ++ 0#3)).setWidth 3 := by
  rw [← BitVec.toNat_inj, BitVec.extractLsb'_toNat, BitVec.toNat_setWidth, BitVec.toNat_sub, toNat_row_append,
    BitVec.toNat_ofNat, Nat.shiftRight_zero]
  omega

/-- The decoder answers `noHandler` exactly for a byte that R47 does not list. -/
theorem decode_noHandler_iff (op : Byte) (rest : List Byte) :
    decode (op :: rest) = .ok (.noHandler op) ↔ op ∉ handledOpcodes :=
  ⟨fun h => (decodeFrom_noHandler h).2, fun h => decode_unhandled h rest⟩

/-- Settles O6: the list is finite, and the three register rows of the table are ranges of opcodes. -/
theorem handledOpcodesAreThe37 : Obligations.HandledOpcodesAreThe37 := by
  refine ⟨rfl, rfl, by decide, decode_noHandler_iff, fun op => ?_⟩
  have push : op.extractLsb' 3 5 = 0x0A#5 ↔ 0x50#8 ≤ op ∧ op ≤ 0x57#8 := extractRow_eq_iff op 0x0A#5
  have pop : op.extractLsb' 3 5 = 0x0B#5 ↔ 0x58#8 ≤ op ∧ op ≤ 0x5F#8 := extractRow_eq_iff op 0x0B#5
  have mov : op.extractLsb' 3 5 = 0x17#5 ↔ 0xB8#8 ≤ op ∧ op ≤ 0xBF#8 := extractRow_eq_iff op 0x17#5
  have pushReg : (op - 0x50#8).setWidth 3 = op.extractLsb' 0 3 := (extractRegister_eq_sub op 0x0A#5).symm
  have popReg : (op - 0x58#8).setWidth 3 = op.extractLsb' 0 3 := (extractRegister_eq_sub op 0x0B#5).symm
  have movReg : (op - 0xB8#8).setWidth 3 = op.extractLsb' 0 3 := (extractRegister_eq_sub op 0x17#5).symm
  simp only [handlerOf, push, pop, mov, pushReg, popReg, movReg]

end Sys2Proof
end

