-- ==== Sys2Proof/Proofs/EffectiveAddress.lean ====
section
/-! What `EffectiveAddress` answers for every addressing form (40_addressing_operands.md R54), one equation for each branch of
its definition; that of the SIB form is `effectiveAddress_sib`. -/

namespace Sys2Proof.Machine

/-- A register form has no address (R54, D18). -/
theorem effectiveAddress_mode3 {x : Regs} {d : Descriptor} (hm : d.mode = 3#2) :
    effectiveAddress x d = .error .invalidAddressingMode := by
  unfold effectiveAddress
  rw [if_pos hm]

theorem effectiveAddress_absolute {x : Regs} {d : Descriptor} (hm : d.mode = 0#2) (h5 : d.rm = 5#3) :
    effectiveAddress x d = .ok (dispValue d.disp) := by
  unfold effectiveAddress
  rw [if_neg (by simp [hm]), if_neg (by simp [h5]), if_pos ⟨hm, h5⟩]

theorem effectiveAddress_base {x : Regs} {d : Descriptor} (hm : d.mode = 0#2) (h4 : d.rm ≠ 4#3) (h5 : d.rm ≠ 5#3) :
    effectiveAddress x d = .ok (x.get (Reg.ofField d.rm)) := by
  unfold effectiveAddress
  rw [if_neg (by simp [hm]), if_neg h4, if_neg fun h => h5 h.2, if_pos hm, readReg_field]

/-- Modes 1 and 2: here register 5 is a base like any other (R54). -/
theorem effectiveAddress_displaced {x : Regs} {d : Descriptor} (h3 : d.mode ≠ 3#2) (h0 : d.mode ≠ 0#2)
    (h4 : d.rm ≠ 4#3) : effectiveAddress x d = .ok (x.get (Reg.ofField d.rm) + dispValue d.disp) := by
  unfold effectiveAddress
  rw [if_neg h3, if_neg h4, if_neg fun h => h0 h.1, if_neg h0, readReg_field, except_bind_ok, except_pure]

/-- Settles O14: each form is one branch of `EffectiveAddress`, with the displacement that its mode has; disp8 is widened as
`BitVec.signExtend` does. -/
theorem effectiveAddressForms : Obligations.EffectiveAddressForms := by
  intro x d
  refine ⟨effectiveAddress_mode3, fun b hm h4 hb => ?sib, effectiveAddress_base, fun w hm h5 hw => ?absolute,
    fun b hm h4 hb => ?disp8, fun w hm h4 hw => ?disp32⟩
  case sib => rw [effectiveAddress_sib hm h4, hb, Option.getD_some]
  case absolute => rw [effectiveAddress_absolute hm h5, hw, dispValue]
  case disp8 =>
    rw [effectiveAddress_displaced (by simp [hm]) (by simp [hm]) h4, hb, dispValue, sext32_eq_signExtend]
  case disp32 => rw [effectiveAddress_displaced (by simp [hm]) (by simp [hm]) h4, hw, dispValue]

end Sys2Proof.Machine
end

