-- ==== Sys2Proof/Proofs/OperandForms.lean ====
section
/-! How an instruction ends that moves EIP and then writes its r/m operand, one equation for each form of the operand
(40_addressing_operands.md R54, R56), and the opcode of a register row as base plus register (30_encoding.md R39). -/

namespace Sys2Proof.Machine

/-- The opcode that a row has for a register is the row's base plus the register's index (R39). -/
theorem row_append_eq_add (row : BitVec 5) (r : Field3) : row ++ r = (row ++ 0#3) + r.zeroExtend 8 := by
  rw [← BitVec.toNat_inj, BitVec.toNat_add, BitVec.toNat_setWidth, toNat_row_append, toNat_row_append]
  have := row.isLt
  have := r.isLt
  simp only [BitVec.toNat_ofNat]
  omega

section
variable {s : State} {d : Descriptor} (n : Nat) (v : Word)

theorem complete_writeOperand32_reg (hm : d.mode = 3#2) :
    complete s (writeOperand32 (s.advance n) d v) = .next ((s.advance n).setReg (Reg.ofField d.rm) v) := by
  rw [writeOperand32_reg v hm, complete_ok]

/-- The dword stored is at the address that the registers gave before EIP moved (R56). -/
theorem complete_writeOperand32_mem {a : Word} (ha : effectiveAddress s.regs d = .ok a)
    (hb : a.toNat + 3 < s.mem.size) :
    ∃ m, StoredAt a v s.mem m ∧ complete s (writeOperand32 (s.advance n) d v) = .next ((s.advance n).setMem m) :=
  ⟨putDword s.mem a.toNat v, storedAt_putDword v hb, congrArg (complete s) (writeOperand32_mem (s := s.advance n) v ha hb)⟩

theorem complete_writeOperand32_out {a : Word} (ha : effectiveAddress s.regs d = .ok a)
    (hb : s.mem.size ≤ a.toNat + 3) :
    complete s (writeOperand32 (s.advance n) d v) =
      .fault (.faulted (.outOfBounds (max a.toNat s.mem.size)) s.trace) :=
  congrArg (complete s) (writeOperand32_mem_out (s := s.advance n) v ha hb)

theorem complete_writeOperand32_sib {b : Byte} (hm : d.mode ≠ 3#2) (h4 : d.rm = 4#3) (hb : d.sib = some b) :
    complete s (writeOperand32 (s.advance n) d v) = .fault (.faulted (.unsupportedSIB b) s.trace) := by
  rw [writeOperand32_sib v hm h4, hb, Option.getD_some, complete_error]

end

end Sys2Proof.Machine
end

