-- ==== Sys2Proof/Proofs/DataTransfer.lean ====
section
/-! The data transfer instructions (41_data_transfer.md R60 to R63): each moves EIP past itself and then writes one operand, or
stops with the fault of its operand. -/

namespace Sys2Proof.Machine

/-! ## MOV r32, imm32 (R60) -/

theorem exec_movR32Imm32_eq (r : Field3) (imm : Word) (s : State) :
    exec (.movR32Imm32 r imm) s = .next ((s.setReg (Reg.ofField r) imm).advance 5) := by
  rw [exec, execMovR32Imm32, writeReg_field]; rfl

/-- Settles O16: the bytes are those of the encoding, and the register write cannot fault. -/
theorem movR32Imm32Effect : Obligations.MovR32Imm32Effect := by
  intro r imm s
  refine ⟨?_, exec_movR32Imm32_eq r imm s⟩
  have hop : 0x17#5 ++ r = 0xB8#8 + r.zeroExtend 8 := row_append_eq_add 0x17#5 r
  rw [← hop]
  exact instructionsAreFetchedAsTheirBytes (.movR32Imm32 r imm) rfl

/-! ## MOV r/m32, r32 (R61) -/

/-- The value is the register's at the start: moving EIP changes no register. -/
theorem exec_movRm32R32_eq (d : Descriptor) (s : State) :
    exec (.movRm32R32 d) s =
      complete s (writeOperand32 (s.advance (1 + d.length)) d (s.regs.get (Reg.ofField d.regOrOpcode))) := by
  simp only [exec, execMovRm32R32, regOperand_eq, except_bind_ok]; rfl

/-- Settles O17: an operand write of the reg-field register, in each form of the operand. -/
theorem movRm32R32Effect : Obligations.MovRm32R32Effect := by
  intro d s
  rw [exec_movRm32R32_eq]
  exact ⟨instructionsAreFetchedAsTheirBytes (.movRm32R32 d), complete_writeOperand32_reg _ _,
    fun _ => complete_writeOperand32_mem _ _, fun _ => complete_writeOperand32_out _ _,
    fun _ => complete_writeOperand32_sib _ _⟩

/-! ## MOV r32, r/m32 (R62) -/

theorem exec_movR32Rm32_of_read {d : Descriptor} {s : State} {v : Word} (h : readOperand32 s d = .ok v) :
    exec (.movR32Rm32 d) s = .next ((s.advance (1 + d.length)).setReg (Reg.ofField d.regOrOpcode) v) := by
  simp only [exec, execMovR32Rm32, readOperand32_advance, h, except_bind_ok, setRegOperand_eq, complete_ok]

theorem exec_movR32Rm32_of_error {d : Descriptor} {s : State} {r : FaultReason} (h : readOperand32 s d = .error r) :
    exec (.movR32Rm32 d) s = .fault (.faulted r s.trace) := by
  simp only [exec, execMovR32Rm32, readOperand32_advance, h, except_bind_error, complete_error]

/-- Settles O18: what the operand read answers, in each form of the operand, is the value moved or the fault. -/
theorem movR32Rm32Effect : Obligations.MovR32Rm32Effect := by
  intro d s
  refine ⟨instructionsAreFetchedAsTheirBytes (.movR32Rm32 d), fun hm => ?reg, fun a v ha hv => ?mem,
    fun a ha hb => ?out, fun b hm h4 hb => ?sib⟩
  case reg => exact exec_movR32Rm32_of_read (readOperand32_reg hm)
  case mem => exact exec_movR32Rm32_of_read ((readOperand32_mem ha).trans hv)
  case out => exact exec_movR32Rm32_of_error ((readOperand32_mem ha).trans (memReadU32_out hb))
  case sib => rw [exec_movR32Rm32_of_error (readOperand32_sib hm h4), hb, Option.getD_some]

/-! ## MOV r/m32, imm32 (R63) -/

theorem exec_movRm32Imm32_eq (d : Descriptor) (imm : Word) (s : State) :
    exec (.movRm32Imm32 d imm) s = complete s (writeOperand32 (s.advance (1 + d.length + 4)) d imm) := rfl

/-- The reg field is not read (R50, D8): neither the length nor the operand depends on it. -/
theorem exec_movRm32Imm32_anyReg (d : Descriptor) (imm : Word) (reg : Field3) (s : State) :
    exec (.movRm32Imm32 { d with regOrOpcode := reg } imm) s = exec (.movRm32Imm32 d imm) s := rfl

/-- Settles O19: an operand write of the immediate, in each form of the operand and for any reg field. -/
theorem movRm32Imm32Effect : Obligations.MovRm32Imm32Effect := by
  intro d imm s
  rw [exec_movRm32Imm32_eq]
  exact ⟨instructionsAreFetchedAsTheirBytes (.movRm32Imm32 d imm), complete_writeOperand32_reg _ _,
    fun _ => complete_writeOperand32_mem _ _, fun _ => complete_writeOperand32_out _ _,
    fun _ => complete_writeOperand32_sib _ _, fun reg => exec_movRm32Imm32_anyReg d imm reg s⟩

end Sys2Proof.Machine
end

