-- ==== Sys2Proof/Proofs/Stack.lean ====
section
/-! The stack instructions (42_stack.md R65 to R70): each is one `Push32` or one `Pop32` and an EIP move. LEAVE is POP EBP at
the ESP that it takes from EBP. -/

namespace Sys2Proof.Machine

/-! ## The primitives (R64, R65) -/

theorem setReg_getReg (s : State) (r : Reg) : s.setReg r (s.getReg r) = s :=
  congrArg s.setRegs (regs_set_get s.regs r)

theorem setReg_setReg (s : State) (r : Reg) (v w : Word) : (s.setReg r v).setReg r w = s.setReg r w :=
  congrArg s.setRegs (regs_set_set s.regs r v w)

/-- A pop right after a push reads the pushed dword, and ESP is what it was. -/
theorem pop32_pushed {s : State} {v : Word} {m : Memory} (hm : StoredAt (s.getReg .ESP - 4#32) v s.mem m) :
    pop32 ((s.setReg .ESP (s.getReg .ESP - 4#32)).setMem m) = .ok (v, s.setMem m) := by
  have hesp : ((s.setReg .ESP (s.getReg .ESP - 4#32)).setMem m).getReg .ESP = s.getReg .ESP - 4#32 := by simp
  rw [pop32_in (hesp ▸ hm.1), hesp, BitVec.sub_add_cancel]
  exact congrArg (fun u => Except.ok (v, u.setMem m)) ((setReg_setReg s .ESP _ _).trans (setReg_getReg s .ESP))

/-- Settles O15: the pushed dword stays in memory, and the pop adds what the push subtracted. -/
theorem pushThenPop : Obligations.PushThenPop := by
  refine ⟨fun s v hb => ?_, fun s v => pop32_in, fun s => pop32_out⟩
  have hm := storedAt_putDword (m := s.mem) v hb
  exact ⟨_, hm, push32_in v hb, pop32_pushed hm⟩

/-! ## The pushes (R66, R68, R69)

`g` is what the instruction does after its push: it moves EIP. -/

section
variable {s : State} (v : Word) (g : State → State)

theorem complete_push32_in (hb : (s.getReg .ESP - 4#32).toNat + 3 < s.mem.size) :
    ∃ m, StoredAt (s.getReg .ESP - 4#32) v s.mem m ∧ complete s (push32 s v >>= fun u => pure (g u)) =
      .next (g ((s.setReg .ESP (s.getReg .ESP - 4#32)).setMem m)) :=
  ⟨putDword s.mem (s.getReg .ESP - 4#32).toNat v, storedAt_putDword v hb, by rw [push32_in v hb]; rfl⟩

theorem complete_push32_out (hb : s.mem.size ≤ (s.getReg .ESP - 4#32).toNat + 3) :
    complete s (push32 s v >>= fun u => pure (g u)) =
      .fault (.faulted (.outOfBounds (max (s.getReg .ESP - 4#32).toNat s.mem.size)) s.trace) := by
  rw [push32_out v hb]; rfl

end

/-- The value pushed is the register's from before the push (R66; log entry 25). -/
theorem exec_pushR32_eq (r : Field3) (s : State) :
    exec (.pushR32 r) s = complete s (push32 s (s.regs.get (Reg.ofField r)) >>= fun u => pure (u.advance 1)) := by
  rw [exec, execPushR32, readReg_field, except_bind_ok]

/-- Settles O20: the push of a register, read first. -/
theorem pushR32Effect : Obligations.PushR32Effect := by
  intro r s
  rw [exec_pushR32_eq]
  refine ⟨?_, complete_push32_in _ (State.advance · 1), complete_push32_out _ _⟩
  have hop : 0x0A#5 ++ r = 0x50#8 + r.zeroExtend 8 := row_append_eq_add 0x0A#5 r
  rw [← hop]
  exact instructionsAreFetchedAsTheirBytes (.pushR32 r) rfl

/-- Settles O22: the push of the immediate. -/
theorem pushImm32Effect : Obligations.PushImm32Effect := fun imm _ =>
  ⟨instructionsAreFetchedAsTheirBytes (.pushImm32 imm) rfl, complete_push32_in imm (State.advance · 5),
    complete_push32_out imm _⟩

/-- The widening of the byte that is pushed, for both parameter values (R45, R69). -/
theorem pushImm8Value_eq (signExtend : Bool) (imm : Byte) :
    pushImm8Value signExtend imm = if signExtend then imm.signExtend 32 else imm.zeroExtend 32 := by
  rw [pushImm8Value, sext32_eq_signExtend, zext32_eq_zeroExtend]

/-- Settles O23: the push of the widened immediate; the parameter of this hardware is `false`. -/
theorem pushImm8Effect : Obligations.PushImm8Effect := by
  intro signExtend imm s
  rw [← pushImm8Value_eq]
  exact ⟨instructionsAreFetchedAsTheirBytes (.pushImm8 imm) rfl, complete_push32_in _ (State.advance · 2),
    complete_push32_out _ _, rfl⟩

/-! ## The pops (R67, R70) -/

/-- ESP moves before the register is written, so that POP ESP leaves the popped value (D12). -/
theorem exec_popR32_in (r : Field3) {s : State} {v : Word} (hv : memReadU32 s.mem (s.getReg .ESP) = .ok v) :
    exec (.popR32 r) s = .next (((s.setReg .ESP (s.getReg .ESP + 4#32)).setReg (Reg.ofField r) v).advance 1) := by
  simp only [exec, execPopR32, pop32_in hv, except_bind_ok, writeReg_field]; rfl

theorem exec_popR32_out (r : Field3) {s : State} (hb : s.mem.size ≤ (s.getReg .ESP).toNat + 3) :
    exec (.popR32 r) s = .fault (.faulted (.outOfBounds (max (s.getReg .ESP).toNat s.mem.size)) s.trace) := by
  simp only [exec, execPopR32, pop32_out hb, except_bind_error, complete_error]

/-- Settles O21: both answers of the pop. -/
theorem popR32Effect : Obligations.PopR32Effect := by
  intro r s
  refine ⟨?_, fun v => exec_popR32_in r, exec_popR32_out r⟩
  have hop : 0x0B#5 ++ r = 0x58#8 + r.zeroExtend 8 := row_append_eq_add 0x0B#5 r
  rw [← hop]
  exact instructionsAreFetchedAsTheirBytes (.popR32 r) rfl

/-- LEAVE is POP EBP (register 5) once ESP has EBP's value (R70, 90_conflicts.md C1). -/
theorem exec_leave_eq (s : State) : exec .leave s = exec (.popR32 5#3) (s.setReg .ESP (s.getReg .EBP)) := rfl

/-- Settles O24: the pop of EBP at old EBP; the first write of ESP does not outlast the second. -/
theorem leaveEffect : Obligations.LeaveEffect := by
  refine ⟨instructionsAreFetchedAsTheirBytes .leave rfl, fun s => ?_⟩
  rw [exec_leave_eq]
  refine ⟨fun v hv => ?next, exec_popR32_out (s := s.setReg .ESP (s.getReg .EBP)) 5#3, fun he => ?same⟩
  case next => rw [exec_popR32_in 5#3 hv, setReg_setReg]; rfl
  case same => rw [he, setReg_getReg]

end Sys2Proof.Machine
end

