-- ==== Sys2Proof/Proofs/StackFrames.lean ====
section
/-! What the instructions that push or pop leave unchanged (42_stack.md R64 to R70, 44_control_transfer.md R79, R80):
registers other than ESP and the destination, memory outside the pushed dword, and the control state. -/

namespace Sys2Proof.Machine

theorem RegsSameExcept.trans {written : List Reg} {s t u : State} (h : RegsSameExcept written s t)
    (h' : RegsSameExcept written t u) : RegsSameExcept written s u := fun q hq => (h' q hq).trans (h q hq)

theorem setReg_regsSameExcept {written : List Reg} {r : Reg} (hr : r ∈ written) (s : State) (v : Word) :
    RegsSameExcept written s (s.setReg r v) := fun _ hq => getReg_setReg_other s v (ne_of_mem_of_not_mem hr hq).symm

/-! ## PUSH and CALL -/

/-- A push and an EIP move, whatever the target, change ESP, EIP and the dword at the lowered ESP. -/
theorem complete_push32_frame {s t : State} {v : Word} {g : State → State}
    (h : complete s (push32 s v >>= fun u => pure (g u)) = .next t) (hg : ∀ u, ∃ w, g u = u.setEip w) :
    RegsSameExcept [.ESP] s t ∧ MemSameOutside (s.getReg .ESP - 4#32) s.mem t.mem ∧ ControlSame s t := by
  obtain ⟨-, rfl⟩ := complete_push32_next h
  obtain ⟨w, hw⟩ := hg ((s.setReg .ESP (s.getReg .ESP - 4#32)).setMem (putDword s.mem (s.getReg .ESP - 4#32).toNat v))
  rw [hw]
  exact ⟨setReg_regsSameExcept (List.mem_singleton_self _) s _,
    fun b hb => memReadU8_putDword_outside s.mem _ b v hb, rfl, rfl, rfl⟩

/-- Settles O38: each of the four forms is one push and an EIP move. -/
theorem pushFormsFrame : Obligations.PushFormsFrame := by
  rintro i s t (⟨r, rfl⟩ | ⟨imm, rfl⟩ | ⟨imm, rfl⟩ | ⟨rel, rfl⟩) h
  case inl => exact complete_push32_frame ((exec_pushR32_eq r s).symm.trans h) fun _ => ⟨_, rfl⟩
  case inr.inl => exact complete_push32_frame h fun _ => ⟨_, rfl⟩
  case inr.inr.inl => exact complete_push32_frame h fun _ => ⟨_, rfl⟩
  case inr.inr.inr => exact complete_push32_frame h fun _ => ⟨_, rfl⟩

/-! ## POP, LEAVE and RET -/

theorem exec_popR32_frame {r : Field3} {s t : State} (h : exec (.popR32 r) s = .next t) :
    RegsSameExcept [.ESP, Reg.ofField r] s t ∧ MemSame s.mem t.mem ∧ ControlSame s t := by
  obtain ⟨v, hv, -⟩ := complete_pop32_next h
  cases (exec_popR32_in r hv).symm.trans h
  have hesp : RegsSameExcept [.ESP, Reg.ofField r] s _ :=
    setReg_regsSameExcept List.mem_cons_self s (s.getReg .ESP + 4#32)
  exact ⟨hesp.trans (setReg_regsSameExcept (List.mem_cons_of_mem _ (List.mem_singleton_self _)) _ v),
    memSame_refl s.mem, rfl, rfl, rfl⟩

theorem exec_leave_frame {s t : State} (h : exec .leave s = .next t) :
    RegsSameExcept [.ESP, .EBP] s t ∧ MemSame s.mem t.mem ∧ ControlSame s t := by
  obtain ⟨hregs, hmem, hcontrol⟩ := exec_popR32_frame ((exec_leave_eq s).symm.trans h)
  exact ⟨(setReg_regsSameExcept List.mem_cons_self s _).trans hregs, hmem, hcontrol⟩

theorem exec_ret_frame {s t : State} (h : exec .ret s = .next t) :
    RegsSameExcept [.ESP] s t ∧ MemSame s.mem t.mem ∧ ControlSame s t := by
  obtain ⟨v, -, hk⟩ := complete_pop32_next h
  cases hk
  exact ⟨setReg_regsSameExcept (List.mem_singleton_self _) s _, memSame_refl s.mem, rfl, rfl, rfl⟩

/-- Settles O39: a pop writes ESP and then its destination, EBP for LEAVE and EIP for RET. -/
theorem popFormsFrame : Obligations.PopFormsFrame := by
  rintro i written s t (⟨r, rfl, rfl⟩ | ⟨rfl, rfl⟩ | ⟨rfl, rfl⟩) h
  case inl => exact exec_popR32_frame h
  case inr.inl => exact exec_leave_frame h
  case inr.inr => exact exec_ret_frame h

end Sys2Proof.Machine
end

