-- ==== Sys2Proof/Proofs/GroupDispatch.lean ====
section
/-! The second dispatch of 0x83 and 0xFF on the reg field (30_encoding.md R48, R49, 43_arithmetic.md R73, R76): it comes after
the ModRM bytes and before the operand and the immediate (60_exceptions.md R94, D12). -/

namespace Sys2Proof

open Machine (except_bind_ok)

/-- An opcode byte with a handler is decoded by it, whatever the source (R47, R83). -/
theorem decodeFrom_handled {ε : Type} {src : Source ε} {op : Byte} {h : Handler} (hop : src.u8 0 = .ok op)
    (hh : handlerOf op = some h) : decodeFrom src = decodeHandler src h := by
  rw [decodeFrom, hop, except_bind_ok, hh]

/-- The immediate of 83 /0 and 83 /5 is fetched once the operand has been read (R74, R75). -/
theorem decodeGroup83_imm_error {ε : Type} {src : Source ε} {d : Descriptor} {e : ε}
    (hx : opcodeExtension d = 0#3 ∨ opcodeExtension d = 5#3) (ho : src.operandRead d = .ok ())
    (hb : src.u8 (1 + d.length) = .error e) : decodeGroup83 src d = .error e := by
  have himm : decodeGroup83Imm src d = .error e := by rw [decodeGroup83Imm, ho, except_bind_ok, hb]
  rcases hx with hx | hx <;> simp [decodeGroup83, hx, himm]

theorem decodeGroupFF_inc {d : Descriptor} (h : d.regOrOpcode = 0#3) : decodeGroupFF d = .incRm32 d := if_pos h

end Sys2Proof

namespace Sys2Proof.Machine

/-! ## The fetch of a group opcode -/

section
variable {s : State} {d : Descriptor} (hd : decodeModRM (fetchSource s) 1 = .ok d)
include hd

theorem fetchInstr_group83 (hop : memReadU8 s.mem s.eip.toNat = .ok 0x83#8) :
    fetchInstr s = decodeGroup83 (fetchSource s) d := by
  rw [fetchInstr, decodeFrom_handled (h := .group83) ((fetchU8_zero s).trans hop) rfl, decodeHandler, hd, except_bind_ok]

theorem fetchInstr_groupFF (hop : memReadU8 s.mem s.eip.toNat = .ok 0xFF#8) :
    fetchInstr s = .ok (decodeGroupFF d) := by
  rw [fetchInstr, decodeFrom_handled (h := .groupFF) ((fetchU8_zero s).trans hop) rfl, decodeHandler, hd, except_bind_ok,
    except_pure]

/-- A fault of the operand read ends the step before the immediate is fetched (R74, R75, D12). -/
theorem step_group83_operand_error (hr : s.status = .running) (hop : memReadU8 s.mem s.eip.toNat = .ok 0x83#8)
    (hx : d.regOrOpcode = 0#3 ∨ d.regOrOpcode = 5#3) {r : FaultReason} (ho : readOperand32 s d = .error r) :
    step s = .fault (.faulted r (s.trace ++ [{ eip := s.eip, opcode := 0x83#8 }])) :=
  step_of_fetchInstr_error hr ((fetchU8_zero s).trans hop)
    ((fetchInstr_group83 hd hop).trans (decodeGroup83_operand_error hx (operandReadFault_error_iff.mpr ho)))

end

/-- Settles O47: the decoder of the group reads the operand, then the immediate, and a fault of either ends the step. -/
theorem operandFaultBeforeImmediate : Obligations.OperandFaultBeforeImmediate := by
  intro s d hr hop hd hx
  refine ⟨fun r ho => step_group83_operand_error hd hr hop hx ho, fun v ho hb => ?_⟩
  have himm : (fetchSource s).u8 (1 + d.length) = .error (.outOfBounds (fetchAddress s (1 + d.length)).toNat) :=
    memReadU8_out hb
  have hi := (fetchInstr_group83 hd hop).trans
    (decodeGroup83_imm_error hx (operandReadFault_ok_iff.mpr ⟨v, ho⟩) himm)
  exact step_of_fetchInstr_error hr ((fetchU8_zero s).trans hop) hi

/-! ## The extensions without a meaning -/

/-- A fault that the fetched instruction raises ends the step, with the opcode's event in the trace (R86). -/
theorem step_of_exec_fault {s : State} {op : Byte} {i : Instr} {f : Fault} (hr : s.status = .running)
    (hop : fetchU8 s 0 = .ok op) (hi : fetchInstr s = .ok i) (hf : exec i (s.emit op) = .fault f) :
    step s = .fault f := by
  rw [step_of_running hr, runningStep_fetched hop, runHandler_fetched ((fetchInstr_emit s op).trans hi), hf]; rfl

/-- The row chosen for an extension other than 0 and 5 raises the fault of that extension (R73). -/
theorem exec_group83Fault {d : Descriptor} (h0 : d.regOrOpcode ≠ 0#3) (h5 : d.regOrOpcode ≠ 5#3) (s : State) :
    exec (group83Fault d) s = .fault (.faulted (.unimplementedGroupExtension 0x83#8 d.regOrOpcode) s.trace) := by
  have hx : ∀ e : Field3, e ≠ 0#3 → e ≠ 5#3 → e = 1#3 ∨ e = 2#3 ∨ e = 3#3 ∨ e = 4#3 ∨ e = 6#3 ∨ e = 7#3 := by decide
  rcases hx _ h0 h5 with h | h | h | h | h | h <;> rw [group83Fault, opcodeExtension, h] <;> rfl

/-- The row chosen for an extension other than 0 raises the fault of that extension (R76). -/
theorem exec_decodeGroupFF {d : Descriptor} (h0 : d.regOrOpcode ≠ 0#3) (s : State) :
    exec (decodeGroupFF d) s = .fault (.faulted (.unimplementedGroupExtension 0xFF#8 d.regOrOpcode) s.trace) := by
  have hx : ∀ e : Field3, e ≠ 0#3 → e = 1#3 ∨ e = 2#3 ∨ e = 3#3 ∨ e = 4#3 ∨ e = 5#3 ∨ e = 6#3 ∨ e = 7#3 := by decide
  rcases hx _ h0 with h | h | h | h | h | h | h <;> rw [decodeGroupFF, opcodeExtension, h] <;> rfl

/-- Settles O34: each row raises its fault, and the dispatch looks at the reg field before the operand and the immediate. -/
theorem group83UnimplementedFaults : Obligations.Group83UnimplementedFaults := by
  refine ⟨fun d s => ⟨rfl, rfl, rfl, rfl, rfl, rfl⟩, fun d s hr hop hd h0 h5 => ?step, fun d s v imm hd hop ho hb => ?fetch⟩
  case step =>
    have hi := (fetchInstr_group83 hd hop).trans (decodeGroup83_fault h0 h5)
    exact step_of_exec_fault hr ((fetchU8_zero s).trans hop) hi (exec_group83Fault h0 h5 _)
  case fetch =>
    rw [fetchInstr_group83 hd hop]
    exact decodeGroup83_imm (operandReadFault_ok_iff.mpr ⟨v, ho⟩) hb

/-- Settles O35: each row raises its fault, and the dispatch looks at the reg field before the operand. -/
theorem groupFFUnimplementedFaults : Obligations.GroupFFUnimplementedFaults := by
  refine ⟨fun d s => ⟨rfl, rfl, rfl, rfl, rfl, rfl, rfl⟩, fun d s hr hop hd h0 => ?step, fun d s hop hd h0 => ?fetch⟩
  case step =>
    exact step_of_exec_fault hr ((fetchU8_zero s).trans hop) (fetchInstr_groupFF hd hop) (exec_decodeGroupFF h0 _)
  case fetch => rw [fetchInstr_groupFF hd hop, decodeGroupFF_inc h0]

end Sys2Proof.Machine
end

