-- ==== Sys2Proof/Proofs/Arithmetic.lean ====
section
/-! The arithmetic instructions (43_arithmetic.md R71 to R77): each moves EIP past itself and replaces its r/m operand by a
function of it, modulo 2^32, or stops with the fault of its operand. -/

namespace Sys2Proof.Machine

/-! ## A read-modify-write (40_addressing_operands.md R59), in each form of the operand -/

section
variable {s : State} {d : Descriptor} (n : Nat) (g : Word → Word)

/-- An operand that reads is replaced by the function of its value; the read saw the registers from before EIP moved. -/
theorem complete_modifyOperand32_of_read {v : Word} (h : readOperand32 s d = .ok v) :
    complete s (modifyOperand32 (s.advance n) d g) = complete s (writeOperand32 (s.advance n) d (g v)) := by
  rw [modifyOperand32, readOperand32_advance, h, except_bind_ok]

theorem complete_modifyOperand32_of_error {r : FaultReason} (h : readOperand32 s d = .error r) :
    complete s (modifyOperand32 (s.advance n) d g) = .fault (.faulted r s.trace) := by
  rw [modifyOperand32, readOperand32_advance, h, except_bind_error, complete_error]

theorem complete_modifyOperand32_reg (hm : d.mode = 3#2) :
    complete s (modifyOperand32 (s.advance n) d g) =
      .next ((s.advance n).setReg (Reg.ofField d.rm) (g (s.getReg (Reg.ofField d.rm)))) := by
  rw [complete_modifyOperand32_of_read n g (readOperand32_reg hm), complete_writeOperand32_reg n _ hm]

/-- An address whose dword reads takes the new dword. -/
theorem complete_modifyOperand32_mem {a old : Word} (ha : effectiveAddress s.regs d = .ok a)
    (hv : memReadU32 s.mem a = .ok old) :
    ∃ m, StoredAt a (g old) s.mem m ∧
      complete s (modifyOperand32 (s.advance n) d g) = .next ((s.advance n).setMem m) := by
  rw [complete_modifyOperand32_of_read n g ((readOperand32_mem ha).trans hv)]
  exact complete_writeOperand32_mem n (g old) ha (memReadU32_ok hv).1

theorem complete_modifyOperand32_out {a : Word} (ha : effectiveAddress s.regs d = .ok a)
    (hb : s.mem.size ≤ a.toNat + 3) :
    complete s (modifyOperand32 (s.advance n) d g) =
      .fault (.faulted (.outOfBounds (max a.toNat s.mem.size)) s.trace) :=
  complete_modifyOperand32_of_error n g ((readOperand32_mem ha).trans (memReadU32_out hb))

theorem complete_modifyOperand32_sib {b : Byte} (hm : d.mode ≠ 3#2) (h4 : d.rm = 4#3) (hb : d.sib = some b) :
    complete s (modifyOperand32 (s.advance n) d g) = .fault (.faulted (.unsupportedSIB b) s.trace) := by
  rw [complete_modifyOperand32_of_error n g (readOperand32_sib hm h4), hb, Option.getD_some]

end

/-! ## ADD r/m32, r32 (R72) -/

/-- The register added is read after the operand and before the write, so ADD of a register to itself doubles it. -/
theorem exec_addRm32R32_eq (d : Descriptor) (s : State) :
    exec (.addRm32R32 d) s =
      complete s (modifyOperand32 (s.advance (1 + d.length)) d (· + s.regs.get (Reg.ofField d.regOrOpcode))) := by
  simp only [exec, execAddRm32R32, regOperand_eq, except_bind_ok]; rfl

/-- Settles O25: a read-modify-write that adds the reg-field register, in each form of the operand. -/
theorem addRm32R32Effect : Obligations.AddRm32R32Effect := by
  intro d s
  rw [exec_addRm32R32_eq]
  exact ⟨instructionsAreFetchedAsTheirBytes (.addRm32R32 d), complete_modifyOperand32_reg _ _,
    fun _ _ => complete_modifyOperand32_mem _ (· + s.regs.get (Reg.ofField d.regOrOpcode)),
    fun _ => complete_modifyOperand32_out _ _, fun _ => complete_modifyOperand32_sib _ _⟩

/-! ## ADD and SUB r/m32, imm8 (R74, R75) -/

theorem exec_addRm32Imm8_eq (d : Descriptor) (imm : Byte) (s : State) :
    exec (.addRm32Imm8 d imm) s =
      complete s (modifyOperand32 (s.advance (1 + d.length + 1)) d (· + imm.signExtend 32)) := by
  rw [← sext32_eq_signExtend]; rfl

theorem exec_subRm32Imm8_eq (d : Descriptor) (imm : Byte) (s : State) :
    exec (.subRm32Imm8 d imm) s =
      complete s (modifyOperand32 (s.advance (1 + d.length + 1)) d (· - imm.signExtend 32)) := by
  rw [← sext32_eq_signExtend]; rfl

/-- Settles O26: a read-modify-write that adds the widened immediate; a step meets the operand's fault while it decodes. -/
theorem addRm32Imm8Effect : Obligations.AddRm32Imm8Effect := by
  intro d imm s
  rw [exec_addRm32Imm8_eq]
  exact ⟨fun hw hx => instructionsAreFetchedAsTheirBytes (.addRm32Imm8 d imm) ((wfExt_iff d _).mpr ⟨hw, hx⟩),
    complete_modifyOperand32_reg _ _, fun _ _ => complete_modifyOperand32_mem _ (· + imm.signExtend 32),
    fun _ => complete_modifyOperand32_out _ _, fun _ => complete_modifyOperand32_sib _ _,
    fun _ hr hop hd hx ho => step_group83_operand_error hd hr hop (.inl hx) ho⟩

/-- Settles O27: a read-modify-write that subtracts the widened immediate; a step meets the operand's fault while it
decodes. -/
theorem subRm32Imm8Effect : Obligations.SubRm32Imm8Effect := by
  intro d imm s
  rw [exec_subRm32Imm8_eq]
  exact ⟨fun hw hx => instructionsAreFetchedAsTheirBytes (.subRm32Imm8 d imm) ((wfExt_iff d _).mpr ⟨hw, hx⟩),
    complete_modifyOperand32_reg _ _, fun _ _ => complete_modifyOperand32_mem _ (· - imm.signExtend 32),
    fun _ => complete_modifyOperand32_out _ _, fun _ => complete_modifyOperand32_sib _ _,
    fun _ hr hop hd hx ho => step_group83_operand_error hd hr hop (.inr hx) ho⟩

/-! ## INC r/m32 (R77) -/

theorem exec_incRm32_eq (d : Descriptor) (s : State) :
    exec (.incRm32 d) s = complete s (modifyOperand32 (s.advance (1 + d.length)) d (· + 1#32)) := rfl

/-- Settles O28: a read-modify-write that adds 1, in each form of the operand. -/
theorem incRm32Effect : Obligations.IncRm32Effect := by
  intro d s
  rw [exec_incRm32_eq]
  exact ⟨fun hw hx => instructionsAreFetchedAsTheirBytes (.incRm32 d) ((wfExt_iff d _).mpr ⟨hw, hx⟩),
    complete_modifyOperand32_reg _ _, fun _ _ => complete_modifyOperand32_mem _ (· + 1#32),
    fun _ => complete_modifyOperand32_out _ _, fun _ => complete_modifyOperand32_sib _ _⟩

end Sys2Proof.Machine
end

