-- ==== Sys2Proof/Proofs/ControlTransfer.lean ====
section
/-! The control transfer instructions (44_control_transfer.md R78 to R82): each moves EIP to its target, CALL after it has
pushed the return address and RET to the dword that it pops. -/

namespace Sys2Proof.Machine

/-! ## JMP (R81, R82) -/

/-- Settles O31: the jump always completes, and the displacement is widened by its sign (R8). -/
theorem jmpRel8Effect : Obligations.JmpRel8Effect := by
  intro rel s
  rw [← sext32_eq_signExtend]
  exact ⟨instructionsAreFetchedAsTheirBytes (.jmpRel8 rel) rfl, rfl⟩

/-- Settles O32: the jump always completes, at the instruction's end plus the displacement. -/
theorem jmpRel32Effect : Obligations.JmpRel32Effect := fun rel _ =>
  ⟨instructionsAreFetchedAsTheirBytes (.jmpRel32 rel) rfl, rfl⟩

/-! ## CALL (R79) -/

/-- Settles O29: the push of the return address, after which EIP is set to the target. -/
theorem callRel32Effect : Obligations.CallRel32Effect := fun rel s =>
  ⟨instructionsAreFetchedAsTheirBytes (.callRel32 rel) rfl,
    complete_push32_in (s.eip + 5#32) (State.setEip · (s.eip + 5#32 + rel)), complete_push32_out (s.eip + 5#32) _⟩

/-! ## RET (R80) -/

theorem exec_ret_in {s : State} {v : Word} (hv : memReadU32 s.mem (s.getReg .ESP) = .ok v) :
    exec .ret s = .next ((s.setReg .ESP (s.getReg .ESP + 4#32)).setEip v) := by
  rw [exec, execRet, pop32_in hv, except_bind_ok]; rfl

theorem exec_ret_out {s : State} (hb : s.mem.size ≤ (s.getReg .ESP).toNat + 3) :
    exec .ret s = .fault (.faulted (.outOfBounds (max (s.getReg .ESP).toNat s.mem.size)) s.trace) := by
  rw [exec, execRet, pop32_out hb, except_bind_error, complete_error]

/-- Settles O30: both answers of the pop. -/
theorem retEffect : Obligations.RetEffect :=
  ⟨instructionsAreFetchedAsTheirBytes .ret rfl, fun _ => ⟨fun _ => exec_ret_in, exec_ret_out⟩⟩

end Sys2Proof.Machine
end

