-- ==== Sys2Proof/Proofs/ExecutionLoop.lean ====
section
/-! The execution loop (45_execution_loop.md R84 to R88): a RUNNING machine's step is its opcode fetch, the trace event, the
handler of the fetched instruction and the checks of the new EIP; a byte without a handler halts it, and from a terminal status
no step is defined. -/

namespace Sys2Proof

open Machine (except_bind_ok)

/-- A byte without a handler is decoded to its own row, whatever the source (R47, R51). -/
theorem decodeFrom_unhandled {ε : Type} {src : Source ε} {op : Byte} (hop : src.u8 0 = .ok op)
    (hn : op ∉ handledOpcodes) : decodeFrom src = .ok (.noHandler op) := by
  rw [decodeFrom, hop, except_bind_ok, (handlerOf_none_iff op).mpr hn]; rfl

/-- Every instruction has its opcode byte (R38). -/
theorem Instr.length_pos (i : Instr) : 0 < i.length := by
  cases i <;> simp only [Instr.length] <;> omega

end Sys2Proof

namespace Sys2Proof.Machine

/-! ## A step runs the fetched instruction (R84, R86) -/

section
variable {s : State} {op : Byte} (hr : s.status = .running) (hop : memReadU8 s.mem s.eip.toNat = .ok op)
include hr hop

/-- After the opcode fetch the step is the handler's, with the trace event added. -/
theorem step_of_opcode : step s = runHandler (s.emit op) := by
  rw [step_of_running hr, runningStep_fetched ((fetchU8_zero s).trans hop)]

theorem step_of_fetchInstr_ok {i : Instr} (hi : fetchInstr s = .ok i) :
    step s = afterHandler (exec i (s.emit op)) := by
  rw [step_of_opcode hr hop, runHandler_fetched ((fetchInstr_emit s op).trans hi)]

/-- A step whose instruction completes answers the checked state. -/
theorem step_of_exec_next {i : Instr} {t : State} (hi : fetchInstr s = .ok i) (ht : exec i (s.emit op) = .next t) :
    step s = .next (postChecks t) := by
  rw [step_of_fetchInstr_ok hr hop hi, ht, afterHandler]

/-- At a byte without a handler the step ends with the halt, which the checks leave as it is (R85, R87). -/
theorem step_of_unhandled (hn : op ∉ handledOpcodes) : step s = .next ((s.emit op).halt (.unknownOpcode op)) := by
  have hi : fetchInstr s = .ok (.noHandler op) := decodeFrom_unhandled ((fetchU8_zero s).trans hop) hn
  rw [step_of_exec_next hr hop hi rfl, postChecks_of_not_running (by simp)]

end

/-- The bytes of an instruction in memory begin with its opcode. -/
theorem HoldsAt.opcode {m : Memory} {a : Nat} {op : Byte} {bs : List Byte} {n : Nat}
    (h : HoldsAt m a ((op :: bs).take n)) (hn : 0 < n) : memReadU8 m a = .ok op :=
  h 0 op ((List.getElem?_take_of_lt hn).trans rfl)

/-- Settles O42: bytes that decode are fetched as what they decode to, or end in the fault that the handler raises itself. -/
theorem stepRunsDecodedInstruction : Obligations.StepRunsDecodedInstruction := by
  refine ⟨fun s bs op i hr hz hd hm => ?bytes, fun s op i hr hop hi => step_of_fetchInstr_ok hr hop hi,
    fun s op r hr hop hi => ?fault, fun _ => rfl, fun _ => rfl⟩
  case bytes =>
    rw [step_of_opcode hr (hm.opcode i.length_pos)]
    exact runHandler_decoded (s := s.emit op) hz hd hm
  case fault => exact step_of_fetchInstr_error hr ((fetchU8_zero s).trans hop) hi

/-! ## The checks of the new EIP (R87) -/

section
variable {t : State} (hr : t.status = .running)
include hr

theorem postChecks_of_zero (h : t.eip = 0#32) : postChecks t = t.halt .sentinelEIP := by
  rw [postChecks, if_pos hr, if_pos h]

theorem postChecks_of_above (h : Config.safetyBound < t.eip) : postChecks t = t.halt .safetyBound := by
  have h0 : t.eip ≠ 0#32 := fun h0 => absurd (h0 ▸ h) (by decide)
  rw [postChecks, if_pos hr, if_neg h0, if_pos h]

theorem postChecks_of_within (h0 : t.eip ≠ 0#32) (hb : t.eip ≤ Config.safetyBound) : postChecks t = t := by
  rw [postChecks, if_pos hr, if_neg h0, if_neg (BitVec.not_lt.mpr hb)]

end

/-- Settles O43: the three ranges of the new EIP, one for each outcome of the checks. -/
theorem postInstructionChecks : Obligations.PostInstructionChecks := by
  intro s t op i hr hop hi ht htr
  rw [step_of_exec_next hr hop hi ht]
  refine ⟨fun h0 => ?_, fun hb => ?_, fun h0 hb => ?_⟩
  · rw [postChecks_of_zero htr (BitVec.eq_of_toNat_eq h0)]; rfl
  · rw [postChecks_of_above htr hb]; rfl
  · rw [postChecks_of_within htr (fun h => by simp [h] at h0) hb]

/-! ## A byte without a handler (R85) -/

/-- Settles O33: the halt writes the status alone, and a halted machine is dumped and exits with 0 (R92). -/
theorem unknownOpcodeHalts : Obligations.UnknownOpcodeHalts :=
  ⟨fun _ _ => rfl, fun _ _ hr hn hop => ⟨_, step_of_unhandled hr hop hn, rfl, ⟨_, rfl, rfl⟩, rfl⟩⟩

/-! ## The terminal statuses (R88) -/

theorem exec_ne_refused (i : Instr) (s : State) (r : Refusal) : exec i s ≠ .refused r := by
  rcases execAnswersNextOrReachableFault i s with ⟨t, ht⟩ | ⟨q, hq, -⟩
  · rw [ht]; exact nofun
  · rw [hq]; exact nofun

theorem afterHandler_ne_refused {o : Host.Outcome State Fault Refusal} {r : Refusal} (h : o ≠ .refused r) :
    afterHandler o ≠ .refused r := by
  cases o with
  | next t => exact nofun
  | fault f => exact nofun
  | refused q => exact h

theorem runHandler_ne_refused (s : State) (r : Refusal) : runHandler s ≠ .refused r := by
  cases hi : fetchInstr s with
  | ok i => rw [runHandler_fetched hi]; exact afterHandler_ne_refused (exec_ne_refused i s r)
  | error q => rw [runHandler_error hi]; exact nofun

theorem runningStep_ne_refused (s : State) (r : Refusal) : runningStep s ≠ .refused r := by
  cases hop : fetchU8 s 0 with
  | ok op => rw [runningStep_fetched hop]; exact runHandler_ne_refused _ r
  | error q => rw [runningStep_unfetched hop]; exact nofun

theorem step_of_terminal {s : State} (h : s.status ≠ .running) : step s = .refused (.terminal s.status) := by
  unfold step
  cases hs : s.status with
  | running => exact absurd hs h
  | halted r => rfl
  | faulted r => rfl

/-- Settles O44: no part of a RUNNING machine's step refuses, and the other statuses are refused by name. -/
theorem stepRefusesExactlyWhenTerminal : Obligations.StepRefusesExactlyWhenTerminal := fun s =>
  ⟨fun hr r => step_of_running hr ▸ runningStep_ne_refused s r, step_of_terminal⟩

end Sys2Proof.Machine
end

