-- ==== Sys2Proof/Proofs/HostOutput.lean ====
section
/-! What the host sees of a step (60_exceptions.md R92, R99): the opcode's event is the only one that the trace gains, because no
handler touches the trace; the dump and the exit code are read off the status alone. -/

namespace Sys2Proof.Machine

/-! ## The trace (R99) -/

/-- No instruction emits an event, whether it completes, halts or faults. -/
theorem traceAfter_exec (i : Instr) (s : State) : traceAfter (exec i s) = some s.trace := by
  have hx := exec_result i s
  generalize exec i s = o at hx ⊢
  cases hx with
  | completed hs => exact congrArg some hs.trace
  | halted op hi => rfl
  | faulted hr => rfl

theorem traceAfter_afterHandler (o : Host.Outcome State Fault Refusal) : traceAfter (afterHandler o) = traceAfter o := by
  cases o with
  | next t => exact congrArg some (postChecks_trace t)
  | fault f => rfl
  | refused r => rfl

/-- After the opcode's event the trace stays as it is, whether the rest of the fetch faults or an instruction runs. -/
theorem traceAfter_runHandler (s : State) : traceAfter (runHandler s) = some s.trace := by
  cases hi : fetchInstr s with
  | ok i => rw [runHandler_fetched hi, traceAfter_afterHandler, traceAfter_exec]
  | error r => rw [runHandler_error hi]; rfl

/-- Settles O48: the event is added between the opcode fetch and the handler, and the handler adds none. -/
theorem traceGrowsByTheFetchedOpcode : Obligations.TraceGrowsByTheFetchedOpcode := by
  refine fun s hr => ⟨fun op hop => ?fetched, fun r hop => ?unfetched⟩
  case fetched => rw [step_of_opcode hr hop, traceAfter_runHandler, emit_trace]
  case unfetched => rw [step_of_running hr, runningStep_unfetched ((fetchU8_zero s).trans hop)]; rfl

/-! ## The dump and the exit code (R92) -/

theorem dump_of_halted {s : State} {h : HaltReason} (hs : s.status = .halted h) : dump s = some (dumpOf s) := by
  rw [dump, hs]

theorem dump_of_faulted {s : State} {r : FaultReason} (hs : s.status = .faulted r) : dump s = none := by
  rw [dump, hs]

theorem dump_of_running {s : State} (hs : s.status = .running) : dump s = none := by
  rw [dump, hs]

/-- Settles O56: the dump and the exit code in each status, and the status that a faulting step leaves. -/
theorem dumpAndExitCodes : Obligations.DumpAndExitCodes := by
  refine ⟨fun s h hs => ⟨dump_of_halted hs, ?_⟩, fun s r hs => ⟨dump_of_faulted hs, ?_⟩,
    fun s hs => ⟨dump_of_running hs, ?_⟩, fun s r tr hf => ?faulting⟩
  case faulting => rw [hf]; rfl
  all_goals rw [hs]; rfl

end Sys2Proof.Machine
end

