-- ==== Sys2Proof/Proofs/RoundTrip.lean ====
section
/-! The round trip between bytes and instructions (30_encoding.md R37 to R52). Decoding an encoding is `decode_encode`; for the
other direction, each part that the decoder reads is a run of the list's bytes that begins where the part before it ends, and
together they are the encoding of the answer. -/

namespace Sys2Proof

open Machine (except_bind_eq_ok)

/-- Settles O1: `decode_encode`, for all 31 rows. -/
theorem decodeInvertsEncode : Obligations.DecodeInvertsEncode := fun _ rest hw => decode_encode hw rest

/-- Bytes that begin with the encoding of a well-formed instruction decode to it. -/
theorem decode_of_encode_prefix {i : Instr} {bs : List Byte} (hw : i.wf = true) (hp : encode i <+: bs) :
    decode bs = .ok i := by
  obtain ⟨rest, rfl⟩ := hp
  exact decode_encode hw rest

/-- Settles O3: each word begins with the encoding of its instruction; that of 83 /7 holds one byte more (R48). -/
theorem specEncodingsDecode : Obligations.SpecEncodingsDecode := by
  refine ⟨?_, ?_, ?_, ?_, ?_, ?_, ?_, ?_, ?_, ?_, ?_, ?_, ?_, ?_, ?_⟩ <;> exact decode_of_encode_prefix rfl (by decide)

/-! ## Bytes that stand at an offset of a list -/

/-- The list `bs` has the bytes `part` from offset `k` on. -/
def StandsAt (bs : List Byte) (k : Nat) (part : List Byte) : Prop := part <+: bs.drop k

section
variable {bs : List Byte} {k : Nat}

theorem StandsAt.nil : StandsAt bs k [] := List.nil_prefix

/-- Two parts stand one after the other. -/
theorem StandsAt.append {p q : List Byte} (hp : StandsAt bs k p) (hq : StandsAt bs (k + p.length) q) :
    StandsAt bs k (p ++ q) := by
  obtain ⟨rest, hrest⟩ := hp
  have hdrop : bs.drop (k + p.length) = rest := by rw [← List.drop_drop, ← hrest, List.drop_left]
  rw [StandsAt, hdrop] at hq
  rw [StandsAt, ← hrest]
  exact List.prefix_append_right_inj p |>.mpr hq

theorem standsAt_of_getElem? {b : Byte} (h : bs[k]? = some b) : StandsAt bs k [b] := by
  obtain ⟨hk, rfl⟩ := List.getElem?_eq_some_iff.mp h
  exact ⟨bs.drop (k + 1), (List.drop_eq_getElem_cons hk).symm⟩

theorem listU8_standsAt {b : Byte} (h : listU8 bs k = .ok b) : StandsAt bs k [b] :=
  standsAt_of_getElem? ((listU8_ok_iff bs k b).mp h)

/-- A dword that was read stands in the list as its four bytes (20_memory.md R25). -/
theorem listU32_standsAt {w : Word} (h : listU32 bs k = .ok w) : StandsAt bs k (bytes32 w) := by
  obtain ⟨b0, b1, b2, b3, h0, h1, h2, h3, rfl⟩ := (listU32_ok_iff bs k w).mp h
  rw [bytes32_le32]
  exact (standsAt_of_getElem? h0).append ((standsAt_of_getElem? h1).append
    ((standsAt_of_getElem? h2).append (standsAt_of_getElem? h3)))

/-! ## The descriptor -/

theorem decodeSib_standsAt {mode : BitVec 2} {rm : Field3} {sib : Option Byte}
    (h : decodeSib (listSource bs) mode rm k = .ok sib) : StandsAt bs k sib.toList := by
  rcases decodeSib_ok h with ⟨-, rfl⟩ | ⟨-, b, hb, rfl⟩
  · exact .nil
  · exact listU8_standsAt hb

theorem decodeDisp_standsAt {mode : BitVec 2} {rm : Field3} {disp : Disp}
    (h : decodeDisp (listSource bs) mode rm k = .ok disp) : StandsAt bs k (dispBytes disp) := by
  rcases decodeDisp_ok h with ⟨-, w, hw, rfl⟩ | ⟨-, -, b, hb, rfl⟩ | ⟨-, -, rfl⟩
  · exact listU32_standsAt hw
  · exact listU8_standsAt hb
  · exact .nil

/-- The ModRM byte, the SIB byte and the displacement, in that order (R43). -/
theorem decodeModRM_standsAt {d : Descriptor} (h : decodeModRM (listSource bs) k = .ok d) :
    StandsAt bs k (modrmBytes d) := by
  obtain ⟨m, hm, hmode, hreg, hrm, hs, hd⟩ := decodeModRM_ok h
  have hbyte : modrmByte d.mode d.regOrOpcode d.rm = m := by rw [hmode, hreg, hrm, modrmByte_fields]
  have hsib := decodeSib_standsAt hs
  have hdisp := decodeDisp_standsAt hd
  rw [← length_sib] at hdisp
  rw [modrmBytes, hbyte]
  exact (listU8_standsAt hm).append (hsib.append hdisp)

/-- What a descriptor's bytes and the part after them make up. -/
theorem decodeModRM_append_standsAt {d : Descriptor} {part : List Byte} (h : decodeModRM (listSource bs) k = .ok d)
    (hp : StandsAt bs (k + d.length) part) : StandsAt bs k (modrmBytes d ++ part) :=
  (decodeModRM_standsAt h).append (by rwa [length_modrmBytes])

end

/-! ## The rows of the groups -/

theorem group83Fault_wf {d : Descriptor} (hw : d.wf = true) (h0 : opcodeExtension d ≠ 0#3) (h5 : opcodeExtension d ≠ 5#3) :
    (group83Fault d).wf = true := by
  unfold group83Fault
  repeat' split
  all_goals
    refine (wfExt_iff d _).mpr ⟨hw, ?_⟩
    unfold opcodeExtension at *
    bv_omega

theorem decodeGroupFF_wf {d : Descriptor} (hw : d.wf = true) : (decodeGroupFF d).wf = true := by
  unfold decodeGroupFF
  repeat' split
  all_goals
    refine (wfExt_iff d _).mpr ⟨hw, ?_⟩
    unfold opcodeExtension at *
    bv_omega

theorem encode_group83Fault (d : Descriptor) : encode (group83Fault d) = 0x83#8 :: modrmBytes d := by
  unfold group83Fault
  repeat' split
  all_goals rfl

theorem encode_decodeGroupFF (d : Descriptor) : encode (decodeGroupFF d) = 0xFF#8 :: modrmBytes d := by
  unfold decodeGroupFF
  repeat' split
  all_goals rfl

/-! ## The instruction -/

/-- The instruction `i` is well-formed, and its encoding is the byte `op` and then bytes that stand at offset 1 of `bs`. -/
def EncodedAfter (op : Byte) (bs : List Byte) (i : Instr) : Prop :=
  i.wf = true ∧ ∃ tail, encode i = op :: tail ∧ StandsAt bs 1 tail

theorem decodeGroup83_encoded {bs : List Byte} {d : Descriptor} {i : Instr} (hd : decodeModRM (listSource bs) 1 = .ok d)
    (h : decodeGroup83 (listSource bs) d = .ok i) : EncodedAfter 0x83#8 bs i := by
  have hw := decodeModRM_wf hd
  rcases decodeGroup83_ok h with ⟨imm, -, hi, hx⟩ | ⟨h0, h5, rfl⟩
  · have hbytes : StandsAt bs 1 (modrmBytes d ++ [imm]) := decodeModRM_append_standsAt hd (listU8_standsAt hi)
    rcases hx with ⟨he, rfl⟩ | ⟨he, rfl⟩
    · exact ⟨(wfExt_iff d _).mpr ⟨hw, he⟩, _, rfl, hbytes⟩
    · exact ⟨(wfExt_iff d _).mpr ⟨hw, he⟩, _, rfl, hbytes⟩
  · exact ⟨group83Fault_wf hw h0 h5, _, encode_group83Fault d, decodeModRM_standsAt hd⟩

/-- What a handler decodes is encoded as its opcode byte and the bytes it read (R38, R47). -/
theorem decodeHandler_encoded {bs : List Byte} {h : Handler} {i : Instr}
    (hk : decodeHandler (listSource bs) h = .ok i) : EncodedAfter (opcodeOf h) bs i := by
  cases h <;> simp only [decodeHandler] at hk
  case push50 | pop58 | retC3 | leaveC9 =>
    cases hk
    exact ⟨rfl, _, rfl, .nil⟩
  case push68 | movB8 | callE8 | jmpE9 =>
    obtain ⟨w, hw, hk⟩ := except_bind_eq_ok.mp hk
    cases hk
    exact ⟨rfl, _, rfl, listU32_standsAt hw⟩
  case push6A | jmpEB =>
    obtain ⟨b, hb, hk⟩ := except_bind_eq_ok.mp hk
    cases hk
    exact ⟨rfl, _, rfl, listU8_standsAt hb⟩
  case add01 | mov89 | mov8B =>
    obtain ⟨d, hd, hk⟩ := except_bind_eq_ok.mp hk
    cases hk
    exact ⟨decodeModRM_wf hd, _, rfl, decodeModRM_standsAt hd⟩
  case movC7 =>
    obtain ⟨d, hd, hk⟩ := except_bind_eq_ok.mp hk
    obtain ⟨w, hw, hk⟩ := except_bind_eq_ok.mp hk
    cases hk
    exact ⟨decodeModRM_wf hd, _, rfl, decodeModRM_append_standsAt hd (listU32_standsAt hw)⟩
  case groupFF =>
    obtain ⟨d, hd, hk⟩ := except_bind_eq_ok.mp hk
    cases hk
    exact ⟨decodeGroupFF_wf (decodeModRM_wf hd), _, encode_decodeGroupFF d, decodeModRM_standsAt hd⟩
  case group83 =>
    obtain ⟨d, hd, hk⟩ := except_bind_eq_ok.mp hk
    exact decodeGroup83_encoded hd hk

/-- Bytes that decode begin with the encoding of the answer, which is well-formed. -/
theorem decode_encoded {bs : List Byte} {i : Instr} (h : decode bs = .ok i) : i.wf = true ∧ encode i <+: bs := by
  obtain ⟨op, hop, h⟩ := except_bind_eq_ok.mp h
  have hstart : StandsAt bs 0 [op] := listU8_standsAt hop
  cases hh : handlerOf op with
  | none =>
    rw [hh] at h
    cases h
    exact ⟨by simpa [Instr.wf] using (handlerOf_none_iff op).mp hh, hstart⟩
  | some k =>
    rw [hh] at h
    obtain ⟨hw, tail, he, htail⟩ := decodeHandler_encoded h
    rw [handlerOf_some hh] at hstart
    rw [he]
    exact ⟨hw, hstart.append htail⟩

/-- Settles O2: the encoding is a prefix of the bytes, and its length is the instruction's. -/
theorem decodedBytesAreItsEncoding : Obligations.DecodedBytesAreItsEncoding := by
  intro bs i h
  obtain ⟨hw, hp⟩ := decode_encoded h
  exact ⟨hw, by rw [← length_encode, ← List.prefix_iff_eq_take.mp hp]⟩

end Sys2Proof
end

