-- ==== Sys2Proof/Proofs/Reset.lean ====
section
/-! The reset procedure (70_reset_and_hazards.md R102): which launch inputs have a run, and what it gives each part of the
state. -/

namespace Sys2Proof.Machine

/-- The reset procedure answers a state exactly for an image that fits below 2^32 (D17). -/
theorem boot_isSome_iff (loadBase initSp : Word) (image : List Byte) :
    (∃ s, boot loadBase initSp image = some s) ↔ loadBase.toNat + image.length ≤ 2 ^ 32 := by
  unfold boot
  split
  · next h => exact iff_of_true ⟨_, rfl⟩ h
  · next h => exact iff_of_false nofun h

section
variable {loadBase initSp : Word} {image : List Byte} {s : State} (h : boot loadBase initSp image = some s)
include h

/-- The fields of the reset state that `boot_fields` leaves out. -/
theorem boot_regs_cells_trace :
    s.regs = Regs.reset.set .ESP initSp ∧ s.mem.cells = imageCells loadBase.toNat image ∧ s.trace = [] := by
  unfold boot at h
  split at h
  · cases h
    exact ⟨rfl, rfl, rfl⟩
  · cases h

theorem boot_getReg (r : Reg) : s.getReg r = if r = .ESP then initSp else 0#32 := by
  obtain ⟨hregs, -, -⟩ := boot_regs_cells_trace h
  rw [State.getReg, hregs, regs_get_set, reset_get]
  split <;> rfl

/-- Memory reads zero below the image and the image from its base on (R23). -/
theorem boot_memGet (a : Nat) :
    s.mem.get a = if a < loadBase.toNat then 0#8 else (image[a - loadBase.toNat]?).getD 0#8 := by
  obtain ⟨-, hcells, -⟩ := boot_regs_cells_trace h
  rw [Memory.get, hcells, cellsGet_imageCells]

theorem boot_memReadU8_below {a : Nat} (ha : a < loadBase.toNat) : memReadU8 s.mem a = .ok 0#8 := by
  obtain ⟨hsize, -⟩ := boot_fields h
  exact (memReadU8_ok_iff _ _ _).mpr ⟨by omega, by rw [boot_memGet h, if_pos ha]⟩

theorem boot_memReadU8_image {k : Nat} {b : Byte} (hb : image[k]? = some b) :
    memReadU8 s.mem (loadBase.toNat + k) = .ok b := by
  obtain ⟨hsize, -⟩ := boot_fields h
  obtain ⟨hk, -⟩ := List.getElem?_eq_some_iff.mp hb
  have hget : s.mem.get (loadBase.toNat + k) = b := by
    rw [boot_memGet h, if_neg (by omega), Nat.add_sub_cancel_left, hb, Option.getD_some]
  exact (memReadU8_ok_iff _ _ _).mpr ⟨by omega, hget⟩

end

/-- The reset with the empty image is `State.reset` (the model's choice, log entry 5). -/
theorem bootImage_empty : bootImage [] = some State.reset := rfl

/-- Settles O55: the parts of the reset state, memory by the three ranges of an address. -/
theorem bootBuildsTheResetState : Obligations.BootBuildsTheResetState := by
  refine ⟨boot_isSome_iff, fun loadBase initSp image s h => ?_, bootImage_empty⟩
  obtain ⟨hsize, heip, hflags, hstatus⟩ := boot_fields h
  obtain ⟨-, -, htrace⟩ := boot_regs_cells_trace h
  refine ⟨hsize, fun a => boot_memReadU8_below h, fun k b => boot_memReadU8_image h,
    fun a ha => memReadU8_out (hsize.trans_le ha), fun r hr => (boot_getReg h r).trans (if_neg hr), boot_getReg h .ESP,
    heip, hflags, hstatus, htrace⟩

/-- Settles O52: the reset state is the reset of the empty image, and every image's meets the invariant. -/
theorem resetMeetsInvariant : Obligations.ResetMeetsInvariant := bootImage_inv bootImage_empty

end Sys2Proof.Machine
end
